-- ==== Sys2Proof/Word.lean ====
section
/-! DEFINITION. The byte and the value types of the frame codec: the width of the length field, the Frame, and the
tagged results and events (spec/10_state.md section 2). Every quantity is unsigned (spec/00_scope.md R15). -/

namespace Sys2Proof

/-- The unit of every byte space (20_memory.md R41), also the opcode and the checksum (00_scope.md R14). -/
abbrev Byte := BitVec 8

/-- A legal length-field width: the register W holds 1 or 2 and nothing else has a meaning (00_scope.md R8). -/
inductive Width where
  | one
  | two
  deriving DecidableEq, Repr

/-- W as the number of bytes of the length field. -/
def Width.bytes : Width → Nat
  | .one => 1
  | .two => 2

/-- A `Frame` by its four free fields (10_state.md R27, decision D21): the start marker is a constant, the length is
`pl.length` and the checksum is computed, so none of the three can go stale (R28, R29). -/
structure Frame where
  /-- messageType, 3 bits -/
  mt : BitVec 3
  /-- subsystem, 5 bits -/
  ss : BitVec 5
  /-- opcode, opaque to the block -/
  op : Byte
  /-- payload, first byte first -/
  pl : List Byte
  deriving DecidableEq, Repr

/-- The closed set of reasons of an Invalid result (10_state.md R30). -/
inductive Reason where
  | badStartMarker
  | checksumMismatch
  deriving DecidableEq, Repr

/-- `EncResult` of 10_state.md R30: what ENC returns on port ENC_RSP. -/
inductive EncResult where
  | ok (bytes : List Byte)
  | encodeError
  deriving DecidableEq, Repr

/-- `DecResult` of 10_state.md R30: what DEC1 returns on port DEC_RSP. `bytes` of an Invalid is the diagnostic tag of
41_frame_decoder.md R102. -/
inductive DecResult where
  | frame (f : Frame) (consumed : Nat)
  | incomplete
  | invalid (reason : Reason) (bytes : List Byte)
  deriving DecidableEq, Repr

/-- `Event` of 10_state.md R31: EvFrame, EvInvalid (the source's DecodeInvalid), EvDesync (StreamDesync). -/
inductive Event where
  | evFrame (f : Frame)
  | evInvalid (reason : Reason) (bytes : List Byte)
  | evDesync (n : Nat)
  deriving DecidableEq, Repr

end Sys2Proof
end

