-- ==== Sys2Proof/Config.lean ====
section
/-! DEFINITION. The implementation parameters of spec/00_scope.md section 3. W is state (10_state.md R23), so only what
follows from it stands here. The spec leaves no value free (93_implementation_defined.md: nothing is `any value`), so
this file declares no opaque constant; BUF_CAP, CHUNK_MAX and PORT_PROTOCOL stay open (notes/assumptions/9.md, 1.md). -/

namespace Sys2Proof

/-- SOF, the start marker, always 0xFE (00_scope.md R9). -/
def sof : Byte := 0xFE

/-- The legal values of W are exactly 1 and 2 (00_scope.md R8). -/
def Width.ofNat? : Nat → Option Width
  | 1 => some .one
  | 2 => some .two
  | _ => none

/-- LMAX(W), the largest payload length: 2^(8*W) - 1 (00_scope.md R10). -/
def lmax (w : Width) : Nat := 2 ^ (8 * w.bytes) - 1

/-- TOTAL(W, L), the size of a wire frame with L payload bytes; a natural number that never wraps (00_scope.md R11). -/
def total (w : Width) (len : Nat) : Nat := 4 + w.bytes + len

/-- TOTAL_MAX(W), the size of the largest frame: 260 or 65541 (00_scope.md R11). -/
def totalMax (w : Width) : Nat := total w (lmax w)

/-- The least BUF_CAP at which a hardware buffer cannot overflow when its largest chunk has `chunk` bytes
(00_scope.md R12). The model's own buffer is unbounded. -/
def bufCapNeeded (w : Width) (chunk : Nat) : Nat := totalMax w + chunk - 1

end Sys2Proof
end

