-- ==== Sys2Proof/Syntax.lean ====
section
/-! DEFINITION. The operations and the two wire formats: one constructor per row of spec/opcode_table.json. -/

namespace Sys2Proof

/-- The rows of spec/opcode_table.json.

The two FRAME rows are wire formats, not operations (30_encoding.md R61, R62): as an instruction, a wire frame is its
arrival, whole and as one chunk, on port RX (log entry 4). The operations carry their operands with them, in the exact
port widths of 10_state.md R32; they have no bit encoding (30_encoding.md R73). -/
inductive Instr where
  /-- FRAME_W1: a wire frame in the format of W = 1 (R61) -/
  | frameW1 (f : Frame)
  /-- FRAME_W2: a wire frame in the format of W = 2 (R62) -/
  | frameW2 (f : Frame)
  /-- ENC: encode a frame (R80) -/
  | enc (mt : BitVec 3) (ss : BitVec 5) (op : Byte) (pl : List Byte)
  /-- DEC1: judge the candidate at offset `off` of `buf` (R90) -/
  | dec1 (buf : List Byte) (off : Nat)
  /-- PUSH: a chunk arrives (R111) -/
  | push (chunk : List Byte)
  /-- CLOSE (R140) -/
  | close
  /-- RESET (R142) -/
  | reset
  deriving DecidableEq, Repr

end Sys2Proof
end

