-- ==== Sys2Proof/Machine/State.lean ====
section
/-! DEFINITION. The state of the block, the transactions its host may present, and the reasons a step can stop.

The spec's own state is `w` and `buf` and nothing else (spec/10_state.md R20). The other fields are the model's: what
has left the three output ports, what the host has still to present, and whether W may still be configured. No
operation reads an output field. -/

namespace Sys2Proof.Machine

/-- The content of the accumulation buffer: a byte sequence, index 0 the front and oldest byte (R21, R40). It is the
only storage of the block; no byte has an address (R49), so it is not a list of address and byte pairs (log entry 3). -/
abbrev Memory := List Byte

/-- One transaction on an input port (10_state.md R32). The port selects the operation (30_encoding.md R73). -/
inductive Transaction where
  /-- CFG: the environment presents a width (any number, so that an illegal one can be refused: R8) -/
  | cfg (width : Nat)
  /-- ENC_REQ: `none` is the absent payload, which means the empty one (R32, R74) -/
  | encReq (mt : BitVec 3) (ss : BitVec 5) (op : Byte) (pl : Option (List Byte))
  /-- DEC_REQ -/
  | decReq (buf : List Byte) (off : Nat)
  /-- RX: a chunk, its boundaries carrying no meaning -/
  | rx (chunk : List Byte)
  /-- CTL carrying CLOSE -/
  | ctlClose
  /-- CTL carrying RESET -/
  | ctlReset
  deriving DecidableEq, Repr

structure State where
  /-- W, the one control register (R23): the width in bytes. 1 and 2 are its legal values; any other, the reset value 0
  among them, is W unset (R191) and every operation that reads W refuses. -/
  w : Nat
  /-- BUF, the accumulation buffer (R21) -/
  buf : Memory
  /-- Model's own: the results returned so far on port ENC_RSP, oldest first (R32) -/
  encRsp : List EncResult
  /-- Model's own: the results returned so far on port DEC_RSP, oldest first (R32) -/
  decRsp : List DecResult
  /-- Model's own: the events emitted so far on port EVT, oldest first (R31); none of them is pending (R35) -/
  evt : List Event
  /-- Model's own: an ENC, DEC1 or PUSH has run since power-on or the last CLOSE, so that W is fixed to the next CLOSE
  (R143, R197, decision D2; log entry 7) -/
  inSession : Bool
  /-- Model's own: the transactions the host has issued and the block has not yet done, next one first (R182, R208) -/
  pending : List Transaction
  deriving DecidableEq, Repr

/-- No fault: "a model's step never gets stuck and never faults on any input" (60_exceptions.md R176). The block's
anomalies are results and events, and no access of an operation can leave BUF (log entry 3). -/
inductive Fault where
  deriving DecidableEq, Repr

/-- What the spec refuses, always at the boundary (60_exceptions.md R176). Each is safe: the spec gives these inputs no
meaning, and the model goes on with none of their effects. -/
inductive Refusal where
  /-- an instruction without a meaning; raised by no arm of this model; safe -/
  | notModelled (mnemonic : String)
  /-- ENC, DEC1, PUSH or a wire frame with W not 1 or 2, unset included, and a CFG that presents such a width (R8,
  R191); raised by those meanings and by configuration; safe -/
  | widthNotLegal
  /-- a CFG that would change W inside a session (R143, R197, decision D2); raised by configuration; safe -/
  | widthChangeInSession
  /-- a FRAME row whose payload is longer than its length field can say: there is no such wire frame (R61, R62);
  raised by the meanings of the two FRAME rows; safe -/
  | noSuchFrame
  deriving DecidableEq, Repr

/-- The machine after power-on, which is a RESET (R33, R190): BUF empty, no event. W has no reset value (R191); 0 is the
model's name for "unset", no legal width (log entry 2). Nothing has been returned and the host has issued nothing. -/
def State.reset : State where
  w := 0
  buf := []
  encRsp := []
  decRsp := []
  evt := []
  inSession := false
  pending := []

end Sys2Proof.Machine
end

