-- ==== Sys2Proof/Machine/Operands.lean ====
section
/-! DEFINITION. The operand forms: what a transaction or an instruction hands to an operation besides plain values. -/

namespace Sys2Proof.Machine

/-- The configured width, if it is a legal one (spec/00_scope.md R8). -/
def State.width? (s : State) : Option Width := Width.ofNat? s.w

/-- The payload operand of ENC_REQ: an absent payload means `[]` (10_state.md R32, 30_encoding.md R74). -/
def payloadOperand (pl : Option (List Byte)) : List Byte := pl.getD []

/-- The frame that ENC's operands describe. There is no length operand (40_frame_encoder.md R81). -/
def frameOperand (mt : BitVec 3) (ss : BitVec 5) (op : Byte) (pl : List Byte) : Frame := ⟨mt, ss, op, pl⟩

/-- The operand W of ENC, DEC1 and PUSH. An operation run with W unset, or not 1 or 2, has no meaning and is refused
(R8, R191). -/
def withWidth (s : State) (run : Width → State) : Host.Outcome State Fault Refusal :=
  match s.width? with
  | some v => .next (run v)
  | none => .refused .widthNotLegal

end Sys2Proof.Machine
end

