-- ==== Sys2Proof/WellFormed.lean ====
section
/-! DEFINITION. Which terms of `Instr` stand for something the spec admits. -/

namespace Sys2Proof

/-- A frame exists in the format of width `w` only when its payload length fits the length field
(10_state.md R27: 0..LMAX(W)). -/
def Frame.fits (w : Width) (f : Frame) : Bool := f.pl.length ≤ lmax w

/-- Well-formedness. The wire formats hold at most LMAX(W) payload bytes (R61, R62). Every operation admits every
operand its ports can carry: mt and ss have the ports' exact widths (R32, R89), ENC takes a payload of any length and
answers EncodeError where it is too long (R81), DEC1 takes any buffer and offset (R91, R101), PUSH any chunk (R130). -/
def Instr.wellFormed : Instr → Bool
  | .frameW1 f => f.fits .one
  | .frameW2 f => f.fits .two
  | .enc _ _ _ _ => true
  | .dec1 _ _ => true
  | .push _ => true
  | .close => true
  | .reset => true

end Sys2Proof
end

