-- ==== Sys2Proof/Decode.lean ====
section
/-! DEFINITION. The wire format, read and written: the field extractors and the frame decoder first, then the field
assemblers and the frame encoder (spec/30_encoding.md, 40_frame_encoder.md, 41_frame_decoder.md), and the host's
`decodeTableWord`. -/

namespace Sys2Proof

/-! ### Reading -/

/-- `s[i]` of 00_scope.md R16. Every use below is guarded by a test of the length, as in the spec's pseudocode; the
default is never read there. -/
def byteAt (s : List Byte) (i : Nat) : Byte := s.getD i 0

/-- `s[i .. i+n-1]` of 00_scope.md R16 (empty when n = 0). -/
def slice (s : List Byte) (i n : Nat) : List Byte := (s.drop i).take n

/-- `xor8`: the exclusive-or of all bytes, starting from 0x00 (00_scope.md R17, decision D6). -/
def xor8 (s : List Byte) : Byte := s.foldl (· ^^^ ·) 0

/-- `mt = hdr[7:5] = hdr >> 5` (30_encoding.md R63). -/
def headerType (hdr : Byte) : BitVec 3 := (hdr >>> 5).setWidth 3

/-- `ss = hdr[4:0] = hdr & 0x1F` (30_encoding.md R63). -/
def headerSubsystem (hdr : Byte) : BitVec 5 := (hdr &&& 0x1F).setWidth 5

/-- The length L from the field's bytes, unsigned, little-endian when W = 2 (30_encoding.md R64). -/
def readLength (w : Width) (field : List Byte) : Nat :=
  match w with
  | .one => (byteAt field 0).toNat
  | .two => (byteAt field 0).toNat + 256 * (byteAt field 1).toNat

/-- `DEC1 buf off` (41_frame_decoder.md R90): the first of its eight steps that returns decides. Total and pure
(R101); the offset is checked, not trusted (R91). -/
def judge (w : Width) (buf : List Byte) (off : Nat) : DecResult :=
  let avail := buf.length - off
  if avail < 1 then .incomplete                                                        -- R92
  else if byteAt buf off ≠ sof then .invalid .badStartMarker [byteAt buf off]          -- R93
  else if avail < 1 + w.bytes then .incomplete                                         -- R94
  else
    let len := readLength w (slice buf (off + 1) w.bytes)                              -- R95
    if avail < total w len then .incomplete                                            -- R96
    else
      let hdr := byteAt buf (off + 1 + w.bytes)                                        -- R97
      let op := byteAt buf (off + 2 + w.bytes)
      let pl := slice buf (off + 3 + w.bytes) len
      let rx := byteAt buf (off + 3 + w.bytes + len)
      let computed := xor8 (slice buf (off + 1) (2 + w.bytes + len))                   -- R98
      if computed ≠ rx then .invalid .checksumMismatch (slice buf off (total w len))
      else .frame ⟨headerType hdr, headerSubsystem hdr, op, pl⟩ (total w len)          -- R99

/-- Why a run of bytes is not a wire frame of the configured format (30_encoding.md R69, and R164 for the first). -/
inductive DecodeRefusal where
  /-- too few bytes to decide -/
  | incomplete
  /-- the first byte is not 0xFE -/
  | badStartMarker
  /-- the recomputed checksum differs from the received one -/
  | checksumMismatch
  deriving DecidableEq, Repr

/-- The wire frame at the front of `bytes` and the bytes after it. W selects the format, for no bit of a frame does
(30_encoding.md R66). The operations have no encoding, so no byte run decodes to one (R73). -/
def decode (w : Width) (bytes : List Byte) : Except DecodeRefusal (Instr × List Byte) :=
  match judge w bytes 0 with
  | .incomplete => .error .incomplete
  | .invalid .badStartMarker _ => .error .badStartMarker
  | .invalid .checksumMismatch _ => .error .checksumMismatch
  | .frame f consumed =>
    match w with
    | .one => .ok (.frameW1 f, bytes.drop consumed)
    | .two => .ok (.frameW2 f, bytes.drop consumed)

/-! ### Writing -/

/-- The header byte `(mt << 5) | ss` (30_encoding.md R63). -/
def packHeader (mt : BitVec 3) (ss : BitVec 5) : Byte := (mt.setWidth 8 <<< 5) ||| ss.setWidth 8

/-- The length field of L: `[L[7:0]]`, or `[L[7:0], L[15:8]]` (30_encoding.md R64). -/
def lengthField (w : Width) (len : Nat) : List Byte :=
  match w with
  | .one => [BitVec.ofNat 8 len]
  | .two => [BitVec.ofNat 8 len, BitVec.ofNat 8 (len / 256)]

/-- The body: the bytes at frame offsets 1 .. 2+W+L, exactly what the checksum covers (30_encoding.md R65). -/
def Frame.body (w : Width) (f : Frame) : List Byte :=
  lengthField w f.pl.length ++ [packHeader f.mt f.ss, f.op] ++ f.pl

/-- The checksum, always computed and never stored (30_encoding.md R65, 10_state.md R28). -/
def Frame.fcs (w : Width) (f : Frame) : Byte := xor8 (f.body w)

/-- The bytes of a wire frame in order (30_encoding.md R60). -/
def Frame.wire (w : Width) (f : Frame) : List Byte := [sof] ++ f.body w ++ [f.fcs w]

/-- `ENC mt ss op pl` (40_frame_encoder.md R80): the capacity test first and all-or-nothing (R81, R86). -/
def serialize (w : Width) (f : Frame) : EncResult :=
  if f.pl.length > lmax w then .encodeError else .ok (f.wire w)

/-- The bytes of a well-formed instruction: a wire frame in its format's layout. The operations have no command word
(30_encoding.md R73), so they have none. -/
def encode (i : Instr) : Option (List Byte) :=
  match i with
  | .frameW1 f => if f.fits .one then some (f.wire .one) else none
  | .frameW2 f => if f.fits .two then some (f.wire .two) else none
  | .enc _ _ _ _ => none
  | .dec1 _ _ => none
  | .push _ => none
  | .close => none
  | .reset => none

/-! ### The host's words -/

/-- `n` bytes of `w`, bits 7:0 first: the first byte on the wire is bits 7:0. -/
def wordBytes : Nat → Nat → List Byte
  | 0, _ => []
  | n + 1, w => BitVec.ofNat 8 w :: wordBytes n (w / 256)

/-- `bytes` with zero bytes after it up to length `n`. -/
def padZeros (n : Nat) (bytes : List Byte) : List Byte := bytes ++ List.replicate (n - bytes.length) 0

/-- The bytes of the table's word `w` of `nbits` bits, every bit above `nbits` zero, up to the end of the frame that
its length field announces under width `v`. -/
def tableBytes (v : Width) (nbits w : Nat) : List Byte :=
  let raw := wordBytes ((nbits + 7) / 8) w
  padZeros (total v (readLength v (slice (padZeros (1 + v.bytes) raw) 1 v.bytes))) raw

/-- The wire frame, of format `v`, that those bytes are as a whole. -/
def decodeTableAs (v : Width) (nbits w : Nat) : Option Instr :=
  match decode v (tableBytes v nbits w) with
  | .ok (i, []) => some i
  | _ => none

/-- The format in which the word is a whole wire frame. No bit of a frame tells the formats apart (30_encoding.md R66),
so where both read it the table's first row, FRAME_W1, is taken (log entry 14). -/
def tableFormat (nbits w : Nat) : Option Width :=
  match decodeTableAs .one nbits w with
  | some _ => some .one
  | none =>
    match decodeTableAs .two nbits w with
    | some _ => some .two
    | none => none

/-- The instruction the decoder reads from a word of spec/opcode_table.json. -/
def decodeTableWord (nbits w : Nat) : Option Instr :=
  match tableFormat nbits w with
  | some v => decodeTableAs v nbits w
  | none => none

end Sys2Proof
end

