-- ==== Sys2Proof/Machine/Ops.lean ====
section
/-! DEFINITION. The named operations over BUF and the output ports, and the one operation that takes an anomaly. -/

namespace Sys2Proof.Machine

/-! ### The buffer primitives (spec/20_memory.md R47) -/

/-- `Append(s)`: `BUF <- BUF ++ s`, the whole chunk before anything is read (R46). -/
def State.append (s : State) (chunk : List Byte) : State := { s with buf := s.buf ++ chunk }

/-- `Evict(n)`: `BUF <- BUF[n..]`, used only with n at most the length. -/
def State.evict (s : State) (n : Nat) : State := { s with buf := s.buf.drop n }

/-- `Clear`: `BUF <- []`. -/
def State.clear (s : State) : State := { s with buf := [] }

/-- `MemRead(i, n)`: `BUF[i..i+n-1]`, defined only for i + n at most the length; it changes nothing (R48). -/
def State.memRead (s : State) (i n : Nat) : Option (List Byte) :=
  if i + n ≤ s.buf.length then some (slice s.buf i n) else none

/-- The least index of a start marker: the scan of PUSH (42_stream_reassembler.md R111). -/
def markerIndex : List Byte → Option Nat
  | [] => none
  | b :: rest => if b = sof then some 0 else (markerIndex rest).map (· + 1)

/-- The form BUF has between operations (10_state.md R22): empty, or an undecided candidate behind a start marker. -/
def Memory.wf (v : Width) (m : Memory) : Bool :=
  m.isEmpty || (byteAt m 0 == sof && judge v m 0 == .incomplete)

/-! ### The output ports (10_state.md R32) -/

/-- `emit E`: place E on the one ordered event output (R31). -/
def State.emit (s : State) (e : Event) : State := { s with evt := s.evt ++ [e] }

/-- Return a result on port ENC_RSP. -/
def State.respondEnc (s : State) (r : EncResult) : State := { s with encRsp := s.encRsp ++ [r] }

/-- Return a result on port DEC_RSP. -/
def State.respondDec (s : State) (r : DecResult) : State := { s with decRsp := s.decRsp ++ [r] }

/-! ### The model's bookkeeping -/

/-- Whether a session is running is noted. -/
def State.setSession (s : State) (b : Bool) : State := { s with inSession := b }

/-- W takes a new value. -/
def State.setWidth (s : State) (w : Nat) : State := { s with w := w }

/-- The host's queue moves on. -/
def State.setPending (s : State) (ts : List Transaction) : State := { s with pending := ts }

/-! ### Anomalies -/

/-- The anomalies of the block, with what each records (60_exceptions.md R160 to R163). -/
inductive Anomaly where
  /-- ENC's payload is too long (R161) -/
  | encodeError
  /-- a direct DEC1 call judged its candidate Invalid (R162) -/
  | invalidResult (reason : Reason) (bytes : List Byte)
  /-- PUSH's candidate at the front of BUF is Invalid (R162) -/
  | invalidCandidate (reason : Reason) (bytes : List Byte)
  /-- the first start marker of BUF has `n` bytes before it (R163) -/
  | noise (n : Nat)
  /-- BUF holds no start marker (R163) -/
  | noMarker
  deriving DecidableEq, Repr

/-- Taking an anomaly: the table of 60_exceptions.md R173, one row per case. Nothing is saved, no mode changes, and
there is no return: the algorithm goes on (R175). StreamDesync is never emitted with a count of zero (R163). -/
def State.take (s : State) (a : Anomaly) : State :=
  match a with
  | .encodeError => s.respondEnc .encodeError
  | .invalidResult r bytes => s.respondDec (.invalid r bytes)
  | .invalidCandidate r bytes => (s.emit (.evInvalid r bytes)).evict 1
  | .noise n => if n = 0 then s else (s.evict n).emit (.evDesync n)
  | .noMarker => if s.buf = [] then s else s.clear.emit (.evDesync s.buf.length)

end Sys2Proof.Machine
end

