-- ==== Sys2Proof/Machine/Decoder.lean ====
section
/-! DEFINITION. frame_decoder (spec/41_frame_decoder.md): the operation DEC1. -/

namespace Sys2Proof.Machine

/-- DEC1 (R90). The judgement `judge` reads nothing but its operands and W (R101); the result is returned on DEC_RSP,
and nothing is raised: Invalid and Incomplete are returned values. -/
def execDec1 (buf : List Byte) (off : Nat) (s : State) : Host.Outcome State Fault Refusal :=
  withWidth s fun v =>
    match judge v buf off with
    | .invalid r bytes => s.take (.invalidResult r bytes)
    | .incomplete => s.respondDec .incomplete
    | .frame f n => s.respondDec (.frame f n)

end Sys2Proof.Machine
end

