-- ==== Sys2Proof/Machine/Encoder.lean ====
section
/-! DEFINITION. frame_encoder (spec/40_frame_encoder.md): the operation ENC. -/

namespace Sys2Proof.Machine

/-- ENC (R80). The result is returned on ENC_RSP; EncodeError is the anomaly of R161 and never goes to EVT. BUF and W
are neither read (but for W) nor written (R86). -/
def execEnc (mt : BitVec 3) (ss : BitVec 5) (op : Byte) (pl : List Byte) (s : State) :
    Host.Outcome State Fault Refusal :=
  withWidth s fun v =>
    match serialize v (frameOperand mt ss op pl) with
    | .encodeError => s.take .encodeError
    | .ok bytes => s.respondEnc (.ok bytes)

/-- The byte-serial encoder of R84: `acc` is exclusive-ored with every emitted byte of the body and emitted last. -/
def serialEmit (acc : Byte) : List Byte → List Byte
  | [] => [acc]
  | b :: rest => b :: serialEmit (acc ^^^ b) rest

/-- What a byte-serial encoder emits for a frame: the start marker, then the body with the accumulator started at 0x00
(R84). -/
def serialFrame (v : Width) (f : Frame) : List Byte := sof :: serialEmit 0 (f.body v)

end Sys2Proof.Machine
end

