-- ==== Sys2Proof/Machine/Reassembler.lean ====
section
/-! DEFINITION. stream_reassembler (spec/42_stream_reassembler.md): the operation PUSH, and the arrival of a whole wire
frame, which is a PUSH of its bytes. -/

namespace Sys2Proof.Machine

/-- How one iteration of PUSH's loop ends: "stop" or "continue" (R131). -/
inductive Control where
  | stop (s : State)
  | continue (s : State)
  deriving DecidableEq, Repr

/-- One iteration of the loop (R111, R131): scan from the front, discard what precedes the first marker, judge the
candidate at the front. A decode attempt always starts at index 0 (R115); an Invalid drops exactly one byte (R117,
R127). -/
def iteration (v : Width) (s : State) : Control :=
  match markerIndex s.buf with
  | none => .stop (s.take .noMarker)                                          -- R113
  | some i =>
    let s1 := s.take (.noise i)                                               -- R114
    match judge v s1.buf 0 with                                               -- R115
    | .incomplete => .stop s1                                                 -- R116
    | .invalid r bytes => .continue (s1.take (.invalidCandidate r bytes))     -- R117
    | .frame f t => .continue ((s1.emit (.evFrame f)).evict t)                -- R118

/-- The loop, `fuel` iterations at most. -/
def loop (v : Width) : Nat → State → State
  | 0, s => s
  | fuel + 1, s =>
    match iteration v s with
    | .stop s' => s'
    | .continue s' => loop v fuel s'

/-- PUSH under a legal width: append the whole chunk (R112), then loop. At most len(BUF) + 1 iterations run after the
append (R119), so that the fuel is never used up. -/
def pushChunk (v : Width) (chunk : List Byte) (s : State) : State :=
  loop v ((s.append chunk).buf.length + 1) (s.append chunk)

/-- PUSH (R111). -/
def execPush (chunk : List Byte) (s : State) : Host.Outcome State Fault Refusal :=
  withWidth s fun v => pushChunk v chunk s

/-- The bytes of a wire frame arrive as one chunk on RX. They are read at the configured W, whatever format they were
written in: a wrong W is not detected as such (30_encoding.md R66, 70_reset_and_hazards.md R200). -/
def deliver (wire : EncResult) (s : State) : Host.Outcome State Fault Refusal :=
  match wire with
  | .ok bytes => withWidth s fun v => pushChunk v bytes s
  | .encodeError => .refused .noSuchFrame

/-- FRAME_W1 (30_encoding.md R61): the arrival of a frame in the format of W = 1 (log entry 4). -/
def execFrameW1 (f : Frame) (s : State) : Host.Outcome State Fault Refusal := deliver (serialize .one f) s

/-- FRAME_W2 (30_encoding.md R62): the arrival of a frame in the format of W = 2 (log entry 4). -/
def execFrameW2 (f : Frame) (s : State) : Host.Outcome State Fault Refusal := deliver (serialize .two f) s

end Sys2Proof.Machine
end

