-- ==== Sys2Proof/Machine/Session.lean ====
section
/-! DEFINITION. Session control (spec/43_session_control.md): the operations CLOSE and RESET, and the configuration of
W. -/

namespace Sys2Proof.Machine

/-- CLOSE (R140): the buffer is discarded, not flushed, and nothing is emitted. W is unchanged. It is not
read, so that CLOSE runs at any W (R23, R33; log entry 17). -/
def execClose (s : State) : Host.Outcome State Fault Refusal := .next s.clear

/-- RESET (R142): the same effect on BUF and the same silence. W is given no value: it holds what configuration
presented (R143). W is not read, so that RESET runs at any W (R23, R33; log entry 17). -/
def execReset (s : State) : Host.Outcome State Fault Refusal := .next s.clear

/-- Whether a session runs after an operation, given whether one ran before it. The session's first ENC, DEC1 or PUSH is
where the block can see that it runs (R143). It is the time up to the adapter's close (00_scope.md R19), so that CLOSE
ends it and a RESET does not: W is fixed "to the next CLOSE" (70_reset_and_hazards.md R197, decision D2). The model's own
bookkeeping of a duty of the host (log entry 7). -/
def sessionAfter (i : Instr) (running : Bool) : Bool :=
  match i with
  | .frameW1 _ => true
  | .frameW2 _ => true
  | .enc _ _ _ _ => true
  | .dec1 _ _ => true
  | .push _ => true
  | .close => false
  | .reset => running

/-- The outcome of an operation with the bookkeeping done. No operation writes `inSession` itself. -/
def noteSession (i : Instr) (o : Host.Outcome State Fault Refusal) : Host.Outcome State Fault Refusal :=
  match o with
  | .next t => .next (t.setSession (sessionAfter i t.inSession))
  | .fault r => .fault r
  | .refused r => .refused r

/-- A CFG transaction (10_state.md R32). Legal widths are 1 and 2 (00_scope.md R8); a change inside a session is
refused (R143, 70_reset_and_hazards.md R197, decision D2). -/
def configure (width : Nat) (s : State) : Host.Outcome State Fault Refusal :=
  match Width.ofNat? width with
  | none => .refused .widthNotLegal
  | some _ =>
    if s.inSession = true ∧ s.w ≠ width then .refused .widthChangeInSession else .next (s.setWidth width)

end Sys2Proof.Machine
end

