-- ==== Sys2Proof/Machine/Dispatch.lean ====
section
/-! DEFINITION. One arm per row of spec/opcode_table.json. -/

namespace Sys2Proof.Machine

def exec (i : Instr) (s : State) : Host.Outcome State Fault Refusal :=
  match i with
  | .frameW1 f => Sys2Proof.Machine.execFrameW1 f s
  | .frameW2 f => Sys2Proof.Machine.execFrameW2 f s
  | .enc mt ss op pl => Sys2Proof.Machine.execEnc mt ss op pl s
  | .dec1 buf off => Sys2Proof.Machine.execDec1 buf off s
  | .push chunk => Sys2Proof.Machine.execPush chunk s
  | .close => Sys2Proof.Machine.execClose s
  | .reset => Sys2Proof.Machine.execReset s

end Sys2Proof.Machine
end

