-- ==== Sys2Proof/Machine/Fetch.lean ====
section
/-! DEFINITION. What takes the place of a fetch: the port on which the next transaction arrives selects the instruction
(spec/30_encoding.md R73). -/

namespace Sys2Proof.Machine

/-- The instruction of a chunk on RX: PUSH of the chunk. A chunk that is exactly one wire frame of the configured format
is named as that frame, whose meaning is the PUSH of the same bytes. -/
def rxInstr (width : Option Width) (chunk : List Byte) : Instr :=
  match width with
  | none => .push chunk
  | some v =>
    match decode v chunk with
    | .ok (i, []) => i
    | _ => .push chunk

/-- What a transaction asks of the block. -/
inductive Selection where
  /-- set W; no operation of the block runs (43_session_control.md R143) -/
  | configuration (width : Nat)
  /-- run an operation -/
  | operation (i : Instr)
  deriving DecidableEq, Repr

/-- The port selects: ENC_REQ runs ENC, DEC_REQ runs DEC1, RX runs PUSH, CTL runs CLOSE or RESET (R73); CFG presents a
width. -/
def select (width : Option Width) : Transaction → Selection
  | .cfg w => .configuration w
  | .encReq mt ss op pl => .operation (.enc mt ss op (payloadOperand pl))
  | .decReq buf off => .operation (.dec1 buf off)
  | .rx chunk => .operation (rxInstr width chunk)
  | .ctlClose => .operation .close
  | .ctlReset => .operation .reset

/-- The state in which the word of the opcode table arrives next: its bytes come on RX before what is pending and, when
they are a wire frame, W is the width of its format. Where they are no frame, they arrive as they are. -/
def fetchWordState (s : State) (nbits w : Nat) : State :=
  match tableFormat nbits w with
  | some v => { s with w := v.bytes, pending := .rx (tableBytes v nbits w) :: s.pending }
  | none => { s with pending := .rx (wordBytes ((nbits + 7) / 8) w) :: s.pending }

end Sys2Proof.Machine
end

