-- ==== Sys2Proof/Machine/Step.lean ====
section
/-! DEFINITION. One step: the next transaction of the host, whole and alone. -/

namespace Sys2Proof.Machine

/-- The block does the host's next transaction as one atomic transition (spec/00_scope.md R7, 20_memory.md R54). With
none pending nothing happens: nothing waits, times out or flushes (70_reset_and_hazards.md R199, R208). Around an operation
the step only takes the transaction off the queue and notes whether W is fixed from here on. -/
def step (s : State) : Host.Outcome State Fault Refusal :=
  match s.pending with
  | [] => .next s
  | t :: rest =>
    match select s.width? t with
    | .operation i => noteSession i (exec i (s.setPending rest))
    | .configuration w => configure w (s.setPending rest)

/-- `s` with the opcode table's word as its next transaction. -/
def State.withFetchWord (s : State) (nbits w : Nat) : State := fetchWordState s nbits w

end Sys2Proof.Machine
end

