-- ==== Sys2Proof/Machine/Events.lean ====
section
/-! DEFINITION. Reading the ordered event output: what an event accounts for, two outputs that differ only in how a
discard is split, and the notification an event becomes. No meaning reads any of it. -/

namespace Sys2Proof.Machine

/-- The consumed count of an event (spec/20_memory.md R58). -/
def consumed (v : Width) : Event → Nat
  | .evFrame f => total v f.pl.length
  | .evInvalid _ _ => 1
  | .evDesync n => n

/-- Put `e` before a list of events, adding the counts where two EvDesync meet. -/
def consMerged (e : Event) (rest : List Event) : List Event :=
  match e, rest with
  | .evDesync n, .evDesync m :: tail => .evDesync (n + m) :: tail
  | e, rest => e :: rest

/-- Adjacent EvDesync events merged by adding their counts (42_stream_reassembler.md R123 (c)). -/
def mergeDesync (events : List Event) : List Event := events.foldr consMerged []

/-- The notifications the environment makes (43_session_control.md R149, R151, 60_exceptions.md R169). The format of
`onError`'s detail is not given (91_not_in_source.md N10); the model hands on what the event carries. -/
inductive Notification where
  /-- `onFrame(Frame)` -/
  | onFrame (f : Frame)
  /-- `onError` for DecodeInvalid -/
  | onDecodeInvalid (reason : Reason) (bytes : List Byte)
  /-- `onError` for StreamDesync -/
  | onStreamDesync (n : Nat)
  /-- `onError` for a transport-level error (60_exceptions.md R165) -/
  | onTransportError
  /-- `onOpened()` -/
  | onOpened
  /-- `onClosed()` -/
  | onClosed
  deriving DecidableEq, Repr

/-- Each event becomes one notification. -/
def notificationOf : Event → Notification
  | .evFrame f => .onFrame f
  | .evInvalid r bytes => .onDecodeInvalid r bytes
  | .evDesync n => .onStreamDesync n

/-- The notifications in the single order of emission (70_reset_and_hazards.md R205). -/
def notifications (events : List Event) : List Notification := events.map notificationOf

end Sys2Proof.Machine
end

