-- ==== Sys2Proof/Machine/Adapter.lean ====
section
/-! DEFINITION. The Transport Adapter: the environment that drives one block (spec/43_session_control.md R146 to R152).
It is outside the block (00_scope.md R3) and `step` never reads it; it is modelled so that the duties the spec gives the
host can be stated. What the outside world decides (is the resource available, does the write succeed, which bytes are
read) is an operand of the call. -/

namespace Sys2Proof.Machine

/-- The errors an adapter's call may return (60_exceptions.md R160). -/
inductive AdapterError where
  | encodeError
  | transportError
  | connectionError
  deriving DecidableEq, Repr

/-- What a call returns to its caller. -/
inductive AdapterResult where
  | done
  /-- the exact bytes written (R148) -/
  | sent (bytes : List Byte)
  | failed (e : AdapterError)
  deriving DecidableEq, Repr

/-- One adapter owns one connection and drives one block (R146). -/
structure Adapter where
  /-- the connection is open (60_exceptions.md R180) -/
  isOpen : Bool
  block : State
  /-- the writes to the stream so far, one entry a write -/
  written : List (List Byte)
  /-- the notifications so far, in one order (70_reset_and_hazards.md R205) -/
  notes : List Notification
  deriving DecidableEq, Repr

/-- A call of the host, or something the stream does. -/
inductive AdapterCall where
  | openConnection (available : Bool)
  | closeConnection
  | send (mt : BitVec 3) (ss : BitVec 5) (op : Byte) (pl : Option (List Byte)) (available writes : Bool)
  | chunkRead (chunk : List Byte)
  | readFailed
  deriving DecidableEq, Repr

/-- The connection becomes open; `onOpened()` is notified (R151). DESIGN CHOICE (log entry 15): this holds whether `open`
or `send` opens it; the spec says only that the notification comes from the adapter's own open (R169). Unsafe. -/
def Adapter.opened (a : Adapter) : Adapter :=
  if a.isOpen then a else { a with isOpen := true, notes := a.notes ++ [.onOpened] }

/-- Run an operation on the block, with the session noted as `step` notes it, and go on with its next state: `close`
ends the session and frees W, `send` and a chunk read fix W. DESIGN CHOICE (log entry 15): the session's mark is set by
the first operation the adapter runs and not by its opening, W being configurable up to then (R143), and also by the ENC
of a `send` that fails. Unsafe. -/
def Adapter.onBlock (a : Adapter) (i : Instr) (k : State → Adapter × AdapterResult) :
    Host.Outcome (Adapter × AdapterResult) Fault Refusal :=
  match noteSession i (exec i a.block) with
  | .next b => .next (k b)
  | .fault r => .fault r
  | .refused r => .refused r

/-- `open()` fails if the resource is unavailable or already open (R146). The error goes to the caller alone (R165 names
the caller or `onError`; DESIGN CHOICE, log entry 15). -/
def adapterOpen (available : Bool) (a : Adapter) : Host.Outcome (Adapter × AdapterResult) Fault Refusal :=
  .next (if a.isOpen || !available then (a, .failed .connectionError) else (a.opened, .done))

/-- `close()` runs CLOSE on the block, and on a closed connection is a no-op (R147). -/
def adapterClose (a : Adapter) : Host.Outcome (Adapter × AdapterResult) Fault Refusal :=
  if a.isOpen then
    a.onBlock .close fun b => ({ a with isOpen := false, block := b, notes := a.notes ++ [.onClosed] }, .done)
  else .next (a, .done)

/-- `send` encodes, opens first if need be, and writes ENC's bytes unchanged in one write; with EncodeError nothing is
written (R148). DESIGN CHOICE (log entry 15): the encoding comes before the opening; a `send`
that opens the connection notifies `onOpened()`, also when the write then fails; a connection that cannot be opened
is a ConnectionError; and after a failed write, of which the spec says only that it is a TransportError, the connection
stays open and nothing is recorded as written, whatever part of the bytes went out. Unsafe. -/
def adapterSend (mt : BitVec 3) (ss : BitVec 5) (op : Byte) (pl : Option (List Byte)) (available writes : Bool)
    (a : Adapter) : Host.Outcome (Adapter × AdapterResult) Fault Refusal :=
  a.onBlock (.enc mt ss op (payloadOperand pl)) fun b =>
    let a1 := { a with block := b }
    match b.encRsp.getLast? with
    | some (.ok bytes) =>
      if !a.isOpen && !available then (a1, .failed .connectionError)
      else if writes then ({ a1.opened with written := a.written ++ [bytes] }, .sent bytes)
      else (a1.opened, .failed .transportError)
    | _ => (a1, .failed .encodeError)

/-- A chunk read is one PUSH, and each event it emits becomes one notification, in order (R149). After close no chunk
is delivered (R144). -/
def adapterChunk (chunk : List Byte) (a : Adapter) : Host.Outcome (Adapter × AdapterResult) Fault Refusal :=
  if a.isOpen then
    a.onBlock (.push chunk) fun b =>
      ({ a with block := b, notes := a.notes ++ notifications (b.evt.drop a.block.evt.length) }, .done)
  else .next (a, .done)

/-- One call. A failed read is notified and nothing is retried (R149, R152). DESIGN CHOICE (log entry 15): the spec does
not say whether a failed read leaves the connection open; here it stays open and the block is as it was, and a failed read
on a closed connection is not notified. Unsafe. -/
def adapterCall (c : AdapterCall) (a : Adapter) : Host.Outcome (Adapter × AdapterResult) Fault Refusal :=
  match c with
  | .openConnection available => adapterOpen available a
  | .closeConnection => adapterClose a
  | .send mt ss op pl available writes => adapterSend mt ss op pl available writes a
  | .chunkRead chunk => adapterChunk chunk a
  | .readFailed => .next (if a.isOpen then { a with notes := a.notes ++ [.onTransportError] } else a, .done)

end Sys2Proof.Machine
end

