-- ==== Sys2Proof/Machine/Flags.lean ====
section
/-! DEFINITION. The block has no status flags, condition codes or predicates (spec/10_state.md R34): the outcome of an
operation is its tagged result. What a hardware instance may derive from the results and from BUF stands here: the
optional numeric codes (60_exceptions.md R167) and the phase of the boundary state machine (42_stream_reassembler.md
R122). No meaning reads any of it. -/

namespace Sys2Proof.Machine

/-- ENC status: 0 = Ok, 1 = EncodeError (R167). -/
def encStatus : EncResult → Nat
  | .ok _ => 0
  | .encodeError => 1

/-- DEC1 result: 0 = Frame, 1 = Incomplete, 2 = Invalid (R167). -/
def decCode : DecResult → Nat
  | .frame _ _ => 0
  | .incomplete => 1
  | .invalid _ _ => 2

/-- Event kind: 0 = EvFrame, 1 = EvInvalid, 2 = EvDesync (R167). -/
def eventKind : Event → Nat
  | .evFrame _ => 0
  | .evInvalid _ _ => 1
  | .evDesync _ => 2

/-- Reason: 0 = BadStartMarker, 1 = ChecksumMismatch (R167). -/
def reasonCode : Reason → Nat
  | .badStartMarker => 0
  | .checksumMismatch => 1

/-- The phases of R122. -/
inductive Phase where
  /-- no frame in progress -/
  | hunt
  /-- marker seen, length field not complete -/
  | len
  /-- length known -/
  | body
  deriving DecidableEq, Repr

/-- The phase as a function of BUF (R122). -/
def phase (v : Width) (m : Memory) : Phase :=
  if m = [] then .hunt else if m.length < 1 + v.bytes then .len else .body

/-- The bytes still needed before a verdict (R122): exact in BODY, a lower bound in HUNT and LEN. -/
def bytesNeeded (v : Width) (m : Memory) : Nat :=
  match phase v m with
  | .hunt => 4 + v.bytes
  | .len => 4 + v.bytes - m.length
  | .body => total v (readLength v (slice m 1 v.bytes)) - m.length

end Sys2Proof.Machine
end

