-- ==== Sys2Proof/Safety.lean ====
section
/-! DEFINITION. The invariant of the machine and what counts as a safe next transaction, in the terms the statements
use. -/

namespace Sys2Proof.Machine

/-- The form BUF has between operations (spec/10_state.md R22). Under no legal width no PUSH has run, so it is empty. -/
def State.bufWf (s : State) : Bool :=
  match s.width? with
  | some v => Memory.wf v s.buf
  | none => s.buf.isEmpty

/-- The bytes are, as a whole, one wire frame of width `v`. -/
def isWire (v : Width) (bytes : List Byte) : Bool :=
  match judge v bytes 0 with
  | .frame _ n => n == bytes.length
  | _ => false

/-- What ENC may have returned: a whole wire frame, or the error (40_frame_encoder.md R85, R86). W may have been
configured anew between sessions, so the frame is one of either format. -/
def encResultWf : EncResult → Bool
  | .ok bytes => isWire .one bytes || isWire .two bytes
  | .encodeError => true

/-- What DEC1 may have returned: a frame with its exact size (41_frame_decoder.md R99), or an Invalid whose tag is the
one byte that is no marker, or a span behind a marker (R102). -/
def decResultWf : DecResult → Bool
  | .frame f n => (f.fits .one && n == total .one f.pl.length) || (f.fits .two && n == total .two f.pl.length)
  | .incomplete => true
  | .invalid .badStartMarker bytes => bytes.length == 1 && byteAt bytes 0 != sof
  | .invalid .checksumMismatch bytes => byteAt bytes 0 == sof && 5 ≤ bytes.length

/-- What PUSH may have emitted: a frame that fits a length field, a checksum mismatch and never a bad start marker
(42_stream_reassembler.md R120), a desync of at least one byte (60_exceptions.md R163). -/
def eventWf : Event → Bool
  | .evFrame f => f.fits .two
  | .evInvalid r bytes => r == .checksumMismatch && byteAt bytes 0 == sof && 5 ≤ bytes.length
  | .evDesync n => 1 ≤ n

/-- The invariant that every step keeps: W is unset or legal; BUF has its form between operations (R22); outside a
session BUF is empty and inside one W is legal (of the model's own field, log entry 7); every result and event returned
so far has its form. -/
def State.wf (s : State) : Bool :=
  s.w ≤ 2 && s.bufWf && (s.inSession || s.buf.isEmpty) && (!s.inSession || s.w != 0) &&
    s.encRsp.all encResultWf && s.decRsp.all decResultWf && s.evt.all eventWf

/-- The host's next transaction is one the spec gives a meaning (60_exceptions.md R176): W is legal for ENC, DEC1 and
PUSH (00_scope.md R8), a CFG presents a legal width and does not change W inside a session, which runs to the next
CLOSE (70_reset_and_hazards.md R197, decision D2). CLOSE and RESET are admitted at any W (log entry 17). -/
def State.admitsNext (s : State) : Bool :=
  match s.pending with
  | [] => true
  | .cfg width :: _ => (width == 1 || width == 2) && (!s.inSession || width == s.w)
  | .encReq _ _ _ _ :: _ => s.w == 1 || s.w == 2
  | .decReq _ _ :: _ => s.w == 1 || s.w == 2
  | .rx _ :: _ => s.w == 1 || s.w == 2
  | .ctlClose :: _ => true
  | .ctlReset :: _ => true

/-- The run of bytes an event accounts for (20_memory.md R58): the whole frame, the dropped marker, or the discarded
bytes, among which there is no marker. -/
def accountsFor (v : Width) (e : Event) (run : List Byte) : Prop :=
  match e with
  | .evFrame f => run = f.wire v
  | .evInvalid _ _ => run = [sof]
  | .evDesync n => run.length = n ∧ sof ∉ run

/-- An EvDesync? The events that are not are those R123 (b) keeps exactly. -/
def isDesync : Event → Bool
  | .evDesync _ => true
  | _ => false

/-- `s` with a series of chunks as the host's transactions. -/
def State.withChunks (s : State) (chunks : List (List Byte)) : State := { s with pending := chunks.map .rx }

end Sys2Proof.Machine
end

