-- ==== Sys2Proof/Certificates/Slice0/Obligations.lean ====
section
/-! DEFINITION. The statements for the provers. `s.w = v.bytes` says that W holds the legal width `v`; `0xFE` is the
start marker. Every equation `exec i s = .next { s with … }` states the frame too: each field not named is unchanged. -/

open Sys2Proof Sys2Proof.Machine

/-! ### Reset and the invariant -/

/-- R33, R190: after power-on BUF is empty, no event is pending, and W holds no legal width, so that ENC, DEC1 and PUSH
are refused until W is configured. -/
def Obligations.ResetEmptiesBufferAndLeavesWidthUnset : Prop :=
  State.reset.buf = [] ∧ State.reset.evt = [] ∧ State.reset.w ≠ 1 ∧ State.reset.w ≠ 2 ∧
    ∀ chunk, exec (.push chunk) State.reset = .refused .widthNotLegal

/-- The machine's invariant (`State.wf`) holds at reset. That BUF is empty is R33; the rest is the model's choice: W is 0
(log entry 2), the output records are empty (log entry 6) and no session is running (log entry 7). -/
def Obligations.ResetIsWellFormed : Prop := State.reset.wf = true

/-- The invariant is kept by every step from every state, reachable or not: BUF keeps the form of R22, W is unset or
legal, and every result and event has its form, the tag of an Invalid by R102 (decision D9, log entry 11). Its two
clauses on `inSession`, BUF is empty outside a session and W is not 0 inside one, are about the model's own field (log
entry 7), and they are part of the hypothesis too. -/
def Obligations.StepKeepsTheInvariant : Prop :=
  ∀ s t : State, s.wf = true → step s = .next t → t.wf = true

/-! ### W -/

/-- R8, R23, R143: outside a session, or where it changes nothing, a CFG of a legal width sets W and nothing else; so it
does right after a CLOSE, which ends the session (R197; log entry 7). -/
def Obligations.ConfigurationSetsWidth : Prop :=
  (∀ (s : State) (v : Width) (rest : List Transaction), s.pending = .cfg v.bytes :: rest →
      (s.inSession = false ∨ s.w = v.bytes) → step s = .next { s with w := v.bytes, pending := rest }) ∧
    ∀ (s : State) (v : Width) (rest : List Transaction), s.pending = .ctlClose :: .cfg v.bytes :: rest →
      ∃ t, step s = .next t ∧
        step t = .next { s with w := v.bytes, buf := [], inSession := false, pending := rest }

/-- R8, R197 (decision D2): a CFG of any other value is refused, and so is a change of W inside a session. The
session lasts to the next CLOSE, so that a RESET in between does not make the change admissible (log entry 7). -/
def Obligations.ConfigurationIsRefused : Prop :=
  (∀ (s : State) (n : Nat) (rest : List Transaction), s.pending = .cfg n :: rest → n ≠ 1 → n ≠ 2 →
      step s = .refused .widthNotLegal) ∧
    (∀ (s : State) (v : Width) (rest : List Transaction), s.pending = .cfg v.bytes :: rest → s.inSession = true →
      s.w ≠ v.bytes → step s = .refused .widthChangeInSession) ∧
    ∀ (s : State) (v : Width) (rest : List Transaction), s.pending = .ctlReset :: .cfg v.bytes :: rest →
      s.inSession = true → s.w ≠ v.bytes →
      ∃ t, step s = .next t ∧ t.buf = [] ∧ step t = .refused .widthChangeInSession

/-- R8, R23: no operation of the block writes W. (Nor does any touch the host's queue.) -/
def Obligations.NoOperationWritesWidth : Prop :=
  ∀ (i : Instr) (s t : State), exec i s = .next t → t.w = s.w ∧ t.pending = s.pending

/-- R8, R191: with W unset, or not 1 or 2, ENC, DEC1, PUSH and an arriving wire frame have no meaning and are refused.
CLOSE and RESET run: only ENC, DEC1 and PUSH read W (R23, R33), and CLOSE and RESET have no operand (R140, R142). That
this outweighs R8's sentence that every operation reads W is the model's reading (log entry 17). -/
def Obligations.IllegalWidthIsRefused : Prop :=
  ∀ s : State, s.w ≠ 1 → s.w ≠ 2 →
    (∀ mt ss op pl, exec (.enc mt ss op pl) s = .refused .widthNotLegal) ∧
    (∀ buf off, exec (.dec1 buf off) s = .refused .widthNotLegal) ∧
    (∀ chunk, exec (.push chunk) s = .refused .widthNotLegal) ∧
    (∀ f : Frame, f.pl.length ≤ 255 → exec (.frameW1 f) s = .refused .widthNotLegal) ∧
    (∀ f : Frame, f.pl.length ≤ 65535 → exec (.frameW2 f) s = .refused .widthNotLegal) ∧
    (∃ t, exec .close s = .next t) ∧ ∃ t, exec .reset s = .next t

/-! ### The wire format -/

/-- R63: the header byte is 32 * mt + ss, and packing and unpacking are inverse to each other. -/
def Obligations.HeaderBytePacksAndUnpacks : Prop :=
  (∀ (mt : BitVec 3) (ss : BitVec 5), (packHeader mt ss).toNat = 32 * mt.toNat + ss.toNat ∧
      headerType (packHeader mt ss) = mt ∧ headerSubsystem (packHeader mt ss) = ss) ∧
    ∀ hdr : Byte, packHeader (headerType hdr) (headerSubsystem hdr) = hdr ∧
      (headerType hdr).toNat = hdr.toNat / 32 ∧ (headerSubsystem hdr).toNat = hdr.toNat % 32

/-- R64: the length field's bytes, low byte first, and the length read from them; a length the width can say survives.
On the wire the field behind the start marker is that of the number of payload bytes, and of nothing else. -/
def Obligations.LengthFieldIsLittleEndian : Prop :=
  (∀ n ≤ 255, lengthField .one n = [BitVec.ofNat 8 n] ∧ readLength .one (lengthField .one n) = n) ∧
    (∀ n ≤ 65535, lengthField .two n = [BitVec.ofNat 8 (n % 256), BitVec.ofNat 8 (n / 256)] ∧
      readLength .two (lengthField .two n) = n) ∧
    (∀ b : Byte, readLength .one [b] = b.toNat) ∧
    (∀ b0 b1 : Byte, readLength .two [b0, b1] = b0.toNat + 256 * b1.toNat) ∧
    ∀ (v : Width) (f : Frame), f.pl.length ≤ lmax v →
      ((f.wire v).drop 1).take v.bytes = lengthField v f.pl.length ∧
        readLength v (((f.wire v).drop 1).take v.bytes) = f.pl.length

/-- R65, R75 (1): the checksum is the exclusive-or of the body alone, and body and checksum together cancel. -/
def Obligations.BodyAndChecksumCancel : Prop :=
  ∀ (v : Width) (f : Frame),
    (f.wire v).getLast? = some (xor8 (((f.wire v).drop 1).take (2 + v.bytes + f.pl.length))) ∧
      xor8 ((f.wire v).drop 1) = 0

/-- Decoding an encoded well-formed wire frame gives it back, with whatever follows it on the wire, in the format of
the width it is read at (R60 to R66). -/
def Obligations.DecodeOfEncodeIsTheInstruction : Prop :=
  (∀ (f : Frame) (bytes rest : List Byte), (Instr.frameW1 f).wellFormed = true → encode (.frameW1 f) = some bytes →
      decode .one (bytes ++ rest) = .ok (.frameW1 f, rest)) ∧
    (∀ (f : Frame) (bytes rest : List Byte), (Instr.frameW2 f).wellFormed = true → encode (.frameW2 f) = some bytes →
      decode .two (bytes ++ rest) = .ok (.frameW2 f, rest)) ∧
    ∀ f : Frame, (f.pl.length ≤ 255 → (encode (.frameW1 f)).isSome = true) ∧
      (f.pl.length ≤ 65535 → (encode (.frameW2 f)).isSome = true)

/-- Whatever decodes was the encoding of what it decodes to: each byte of a frame has one meaning. -/
def Obligations.EncodeOfDecodeIsTheBytes : Prop :=
  ∀ (v : Width) (bytes rest : List Byte) (i : Instr), decode v bytes = .ok (i, rest) →
    i.wellFormed = true ∧ ∃ front, encode i = some front ∧ bytes = front ++ rest

/-- A few frames of 95_test_vectors.md, written byte by byte from R61 and R62, decode to what they stand for. -/
def Obligations.WrittenOutFramesDecode : Prop :=
  decode .one [0xFE, 0x00, 0x22, 0x06, 0x24] = .ok (.frameW1 ⟨1, 2, 0x06, []⟩, []) ∧
    decode .one [0xFE, 0x04, 0x89, 0x41, 0x10, 0x20, 0x30, 0x40, 0x8C] =
      .ok (.frameW1 ⟨4, 9, 0x41, [0x10, 0x20, 0x30, 0x40]⟩, []) ∧
    decode .two [0xFE, 0x03, 0x00, 0x61, 0x02, 0x01, 0x02, 0x03, 0x60] =
      .ok (.frameW2 ⟨3, 1, 0x02, [0x01, 0x02, 0x03]⟩, []) ∧
    decode .two [0xFE, 0x00, 0x00, 0x1F, 0xAB, 0xB4] = .ok (.frameW2 ⟨0, 31, 0xAB, []⟩, [])

/-! ### ENC -/

/-- R80, R81: ENC returns the frame's bytes, or EncodeError exactly when the payload is longer than 2^(8W) - 1; it
writes no state of the block. -/
def Obligations.EncReturnsTheFrameOrEncodeError : Prop :=
  ∀ (s : State) (v : Width) (mt : BitVec 3) (ss : BitVec 5) (op : Byte) (pl : List Byte), s.w = v.bytes →
    (pl.length ≤ 2 ^ (8 * v.bytes) - 1 →
      ∀ body : List Byte,
        body = (if v.bytes = 1 then [BitVec.ofNat 8 pl.length]
          else [BitVec.ofNat 8 (pl.length % 256), BitVec.ofNat 8 (pl.length / 256)]) ++
            [(mt.setWidth 8 <<< 5) ||| ss.setWidth 8, op] ++ pl →
        exec (.enc mt ss op pl) s = .next { s with
          encRsp := s.encRsp ++ [.ok ([0xFE] ++ body ++ [body.foldl (· ^^^ ·) 0])] }) ∧
    (2 ^ (8 * v.bytes) - 1 < pl.length →
      exec (.enc mt ss op pl) s = .next { s with encRsp := s.encRsp ++ [.encodeError] })

/-- R85: where each field of ENC's output lies, and its size. -/
def Obligations.EncOutputLayout : Prop :=
  ∀ (s : State) (v : Width) (mt : BitVec 3) (ss : BitVec 5) (op : Byte) (pl : List Byte), s.w = v.bytes →
    pl.length ≤ lmax v →
    ∃ bytes, exec (.enc mt ss op pl) s = .next { s with encRsp := s.encRsp ++ [.ok bytes] } ∧
      bytes.length = 4 + v.bytes + pl.length ∧ bytes[0]? = some 0xFE ∧
      readLength v ((bytes.drop 1).take v.bytes) = pl.length ∧
      (bytes[1 + v.bytes]?).map BitVec.toNat = some (32 * mt.toNat + ss.toNat) ∧
      bytes[2 + v.bytes]? = some op ∧ (bytes.drop (3 + v.bytes)).take pl.length = pl ∧
      bytes[3 + v.bytes + pl.length]? = some (xor8 ((bytes.drop 1).take (2 + v.bytes + pl.length)))

/-- R84: a byte-serial encoder with a running accumulator emits the same frame. -/
def Obligations.SerialEncoderAgrees : Prop :=
  ∀ (s : State) (v : Width) (mt : BitVec 3) (ss : BitVec 5) (op : Byte) (pl : List Byte), s.w = v.bytes →
    pl.length ≤ lmax v →
    exec (.enc mt ss op pl) s = .next { s with
      encRsp := s.encRsp ++ [.ok (serialFrame v ⟨mt, ss, op, pl⟩)] }

/-- R88: what ENC returns, DEC1 reads back field for field, at the same W, wherever it lies and whatever follows. -/
def Obligations.Dec1ReadsBackWhatEncReturned : Prop :=
  ∀ (s a : State) (mt : BitVec 3) (ss : BitVec 5) (op : Byte) (pl bytes before after : List Byte),
    exec (.enc mt ss op pl) s = .next a → a.encRsp = s.encRsp ++ [.ok bytes] →
    exec (.dec1 (before ++ bytes ++ after) before.length) a =
      .next { a with decRsp := a.decRsp ++ [.frame ⟨mt, ss, op, pl⟩ bytes.length] } ∧
    ∀ v : Width, s.w = v.bytes → bytes.getLast? = some (Frame.fcs v ⟨mt, ss, op, pl⟩)

/-- R53: an ENC and a PUSH, CLOSE or RESET may be interleaved in any way. -/
def Obligations.EncCommutesWithTheInboundSide : Prop :=
  ∀ (s : State) (v : Width) (mt : BitVec 3) (ss : BitVec 5) (op : Byte) (pl : List Byte) (i : Instr), s.w = v.bytes →
    ((∃ chunk, i = .push chunk) ∨ i = .close ∨ i = .reset) →
    ∃ a b t, exec (.enc mt ss op pl) s = .next a ∧ exec i a = .next t ∧
      exec i s = .next b ∧ exec (.enc mt ss op pl) b = .next t

/-- R26, R86, R101: the result of ENC and of DEC1 is a function of W and the operands alone. -/
def Obligations.CodecResultsDependOnWidthAndOperandsOnly : Prop :=
  ∀ s t : State, s.w = t.w → (s.w = 1 ∨ s.w = 2) →
    (∀ mt ss op pl, ∃ r, exec (.enc mt ss op pl) s = .next { s with encRsp := s.encRsp ++ [r] } ∧
      exec (.enc mt ss op pl) t = .next { t with encRsp := t.encRsp ++ [r] }) ∧
    ∀ buf off, ∃ r, exec (.dec1 buf off) s = .next { s with decRsp := s.decRsp ++ [r] } ∧
      exec (.dec1 buf off) t = .next { t with decRsp := t.decRsp ++ [r] }

/-! ### DEC1 -/

/-- R92: with no byte at the offset, DEC1 answers Incomplete. -/
def Obligations.Dec1WithNoByteIsIncomplete : Prop :=
  ∀ (s : State) (v : Width) (buf : List Byte) (off : Nat), s.w = v.bytes → buf.length ≤ off →
    exec (.dec1 buf off) s = .next { s with decRsp := s.decRsp ++ [.incomplete] }

/-- R93: a byte at the offset that is not 0xFE is a bad start marker, however many bytes follow; the tag is that byte. -/
def Obligations.Dec1BadStartMarker : Prop :=
  ∀ (s : State) (v : Width) (buf : List Byte) (off : Nat) (b : Byte), s.w = v.bytes → buf[off]? = some b → b ≠ 0xFE →
    exec (.dec1 buf off) s =
      .next { s with decRsp := s.decRsp ++ [.invalid .badStartMarker [b]] }

/-- R94: behind a start marker, fewer than 1 + W bytes are not enough to know the length. -/
def Obligations.Dec1WithoutLengthIsIncomplete : Prop :=
  ∀ (s : State) (v : Width) (buf : List Byte) (off : Nat), s.w = v.bytes → buf[off]? = some 0xFE →
    buf.length - off < 1 + v.bytes →
    exec (.dec1 buf off) s = .next { s with decRsp := s.decRsp ++ [.incomplete] }

/-- R95, R96: fewer than 4 + W + L bytes from the offset on are undecided, whatever they are. -/
def Obligations.Dec1BeforeTheWholeFrameIsIncomplete : Prop :=
  ∀ (s : State) (v : Width) (before field after : List Byte) (len : Nat), s.w = v.bytes → field.length = v.bytes →
    len = (if v.bytes = 1 then (field.getD 0 0).toNat else (field.getD 0 0).toNat + 256 * (field.getD 1 0).toNat) →
    1 + v.bytes + after.length < 4 + v.bytes + len →
    exec (.dec1 (before ++ [0xFE] ++ field ++ after) before.length) s =
      .next { s with decRsp := s.decRsp ++ [.incomplete] }

/-- R97, R98, R99: a complete candidate is the frame its fields say when the recomputed checksum is the received one,
and a checksum mismatch when it is not (whose tag the next statement gives). -/
def Obligations.Dec1JudgesACompleteCandidate : Prop :=
  ∀ (s : State) (v : Width) (before field pl after : List Byte) (hdr op received : Byte), s.w = v.bytes →
    field.length = v.bytes →
    pl.length = (if v.bytes = 1 then (field.getD 0 0).toNat
      else (field.getD 0 0).toNat + 256 * (field.getD 1 0).toNat) →
    ∀ body : List Byte, body = field ++ [hdr, op] ++ pl →
      (body.foldl (· ^^^ ·) 0 = received →
        ∃ f : Frame, f.mt = (hdr >>> 5).setWidth 3 ∧ f.ss = (hdr &&& 0x1F).setWidth 5 ∧ f.op = op ∧ f.pl = pl ∧
          f.fcs v = received ∧
          exec (.dec1 (before ++ [0xFE] ++ body ++ [received] ++ after) before.length) s = .next { s with
            decRsp := s.decRsp ++ [.frame f (4 + v.bytes + pl.length)] }) ∧
      (body.foldl (· ^^^ ·) 0 ≠ received →
        ∃ tag, exec (.dec1 (before ++ [0xFE] ++ body ++ [received] ++ after) before.length) s = .next { s with
          decRsp := s.decRsp ++ [.invalid .checksumMismatch tag] })

/-- R102 (decision D9, log entry 11): a checksum mismatch is tagged with the candidate's whole span, from the start
marker through the checksum byte, a bad start marker with the one byte found. -/
def Obligations.Dec1TagsAnInvalidWithItsBytes : Prop :=
  ∀ (s : State) (v : Width) (buf tag : List Byte) (off : Nat) (r : Reason), s.w = v.bytes →
    exec (.dec1 buf off) s = .next { s with decRsp := s.decRsp ++ [.invalid r tag] } →
    (r = .badStartMarker → ∃ b, buf[off]? = some b ∧ b ≠ 0xFE ∧ tag = [b]) ∧
    (r = .checksumMismatch → tag <+: buf.drop off ∧ tag[0]? = some 0xFE ∧
      tag.length = 4 + v.bytes + readLength v ((buf.drop (off + 1)).take v.bytes))

/-- R100: once all T bytes of the candidate are there, the verdict is a function of these T bytes alone: any two buffers
that agree on them from their offsets get the same one. A bad start marker depends on the one byte at the offset alone.
So no byte before a decided candidate or behind it has any influence. -/
def Obligations.Dec1VerdictIsStable : Prop :=
  ∀ (s : State) (v : Width) (buf : List Byte) (off : Nat), s.w = v.bytes →
    (∀ (other : List Byte) (pos t : Nat), t = 4 + v.bytes + readLength v ((buf.drop (off + 1)).take v.bytes) →
      off + t ≤ buf.length → (other.drop pos).take t = (buf.drop off).take t →
      ∃ r, r ≠ .incomplete ∧ exec (.dec1 buf off) s = .next { s with decRsp := s.decRsp ++ [r] } ∧
        exec (.dec1 other pos) s = .next { s with decRsp := s.decRsp ++ [r] }) ∧
    (∀ (other : List Byte) (pos : Nat) (b : Byte), buf[off]? = some b → b ≠ 0xFE → other[pos]? = some b →
      ∃ tag, exec (.dec1 buf off) s = .next { s with decRsp := s.decRsp ++ [.invalid .badStartMarker tag] } ∧
        exec (.dec1 other pos) s = .next { s with decRsp := s.decRsp ++ [.invalid .badStartMarker tag] }) ∧
    ∀ (before more : List Byte) (r : DecResult),
      exec (.dec1 buf off) s = .next { s with decRsp := s.decRsp ++ [r] } → r ≠ .incomplete →
      exec (.dec1 (before ++ buf ++ more) (before.length + off)) s = .next { s with decRsp := s.decRsp ++ [r] }

/-- R103 (1): every strict prefix of a valid frame is Incomplete. -/
def Obligations.Dec1OfAStrictPrefixIsIncomplete : Prop :=
  ∀ (s : State) (v : Width) (f : Frame) (n : Nat), s.w = v.bytes → f.pl.length ≤ lmax v → n < 4 + v.bytes + f.pl.length →
    exec (.dec1 ((f.wire v).take n) 0) s = .next { s with decRsp := s.decRsp ++ [.incomplete] }

/-- R104: one changed byte outside the length field is never accepted: a changed header, opcode, payload or checksum
byte is a checksum mismatch, a changed start marker a bad start marker. -/
def Obligations.Dec1RejectsAnyOneByteError : Prop :=
  ∀ (s : State) (v : Width) (f : Frame) (k : Nat) (b old : Byte), s.w = v.bytes → f.pl.length ≤ lmax v →
    (f.wire v)[k]? = some old → b ≠ old →
    (1 + v.bytes ≤ k → exec (.dec1 ((f.wire v).set k b) 0) s = .next { s with
      decRsp := s.decRsp ++ [.invalid .checksumMismatch ((f.wire v).set k b)] }) ∧
    (k = 0 → exec (.dec1 ((f.wire v).set k b) 0) s = .next { s with
      decRsp := s.decRsp ++ [.invalid .badStartMarker [b]] })

/-- R70, R75: any complete candidate whose bytes from the length field through the checksum cancel is accepted, and no
other is. -/
def Obligations.Dec1AcceptsExactlyWhatCancels : Prop :=
  ∀ (s : State) (v : Width) (field rest after : List Byte), s.w = v.bytes → field.length = v.bytes →
    rest.length = 3 + readLength v field →
    ((∃ f n, exec (.dec1 ([0xFE] ++ field ++ rest ++ after) 0) s =
        .next { s with decRsp := s.decRsp ++ [.frame f n] }) ↔
      (field ++ rest).foldl (· ^^^ ·) 0 = (0 : Byte))

/-! ### PUSH -/

/-- R110, R111, R131: with a legal W, PUSH completes for every chunk and every BUF. It writes BUF, appends to EVT, and
changes nothing else of the block. -/
def Obligations.PushCompletesAndWritesOnlyBufferAndEvents : Prop :=
  ∀ (s : State) (v : Width) (chunk : List Byte), s.w = v.bytes →
    ∃ buf new, exec (.push chunk) s = .next { s with buf := buf, evt := s.evt ++ new }

/-- R112, R113: where old buffer and chunk together hold no start marker, all of it is discarded, with one notice of
the count when there was anything. -/
def Obligations.PushWithoutMarkerDiscardsEverything : Prop :=
  ∀ (s : State) (v : Width) (chunk : List Byte), s.w = v.bytes → 0xFE ∉ s.buf ++ chunk →
    exec (.push chunk) s = .next { s with
      buf := [],
      evt := s.evt ++ if s.buf ++ chunk = [] then [] else [.evDesync (s.buf ++ chunk).length] }

/-- R112, R114, R115, R116: the bytes before the first marker are discarded with a notice, and an undecided candidate stays
in BUF as it is. -/
def Obligations.PushKeepsAnUndecidedCandidate : Prop :=
  ∀ (s : State) (v : Width) (chunk noise cand : List Byte), s.w = v.bytes → s.buf ++ chunk = noise ++ 0xFE :: cand →
    0xFE ∉ noise → exec (.dec1 (0xFE :: cand) 0) s = .next { s with decRsp := s.decRsp ++ [.incomplete] } →
    exec (.push chunk) s = .next { s with
      buf := 0xFE :: cand,
      evt := s.evt ++ if noise = [] then [] else [.evDesync noise.length] }

/-- R115, R117, R127: after an Invalid exactly the one marker is dropped, and everything behind it is scanned again as if it
had just been there. -/
def Obligations.PushDropsOneByteAfterInvalid : Prop :=
  ∀ (s : State) (v : Width) (chunk noise cand tag : List Byte) (r : Reason), s.w = v.bytes →
    s.buf ++ chunk = noise ++ 0xFE :: cand → 0xFE ∉ noise →
    exec (.dec1 (0xFE :: cand) 0) s = .next { s with decRsp := s.decRsp ++ [.invalid r tag] } →
    ∃ t, exec (.push chunk) s = .next t ∧
      exec (.push []) { s with
        buf := cand, evt := s.evt ++ (if noise = [] then [] else [.evDesync noise.length]) ++ [.evInvalid r tag] } =
          .next t

/-- R115, R118: a frame is emitted and evicted whole, and the loop goes on with what remains. -/
def Obligations.PushEmitsAndEvictsAFrame : Prop :=
  ∀ (s : State) (v : Width) (chunk noise cand : List Byte) (f : Frame) (n : Nat), s.w = v.bytes →
    s.buf ++ chunk = noise ++ 0xFE :: cand → 0xFE ∉ noise →
    exec (.dec1 (0xFE :: cand) 0) s = .next { s with decRsp := s.decRsp ++ [.frame f n] } →
    ∃ t, exec (.push chunk) s = .next t ∧
      exec (.push []) { s with
        buf := (0xFE :: cand).drop n,
        evt := s.evt ++ (if noise = [] then [] else [.evDesync noise.length]) ++ [.evFrame f] } = .next t

/-- R119: an iteration that goes on has evicted at least one byte, so that len(BUF) + 1 iterations always suffice. -/
def Obligations.PushLoopTerminates : Prop :=
  (∀ (v : Width) (s t : State), iteration v s = .continue t → t.buf.length < s.buf.length) ∧
    ∀ (v : Width) (s : State) (fuel : Nat), s.buf.length < fuel → loop v fuel s = loop v (s.buf.length + 1) s

/-- R120, R163: PUSH never emits a bad start marker and never a desync of zero bytes. -/
def Obligations.PushEventsHaveTheirForms : Prop :=
  ∀ (s t : State) (chunk : List Byte), exec (.push chunk) s = .next t →
    ∃ new, t.evt = s.evt ++ new ∧ ∀ e ∈ new, (∀ n, e = .evDesync n → 1 ≤ n) ∧
      ∀ r tag, e = .evInvalid r tag → r = .checksumMismatch

/-- R50, R51, R58: over any series of chunks, the runs the events account for, in event order, followed by BUF, are
exactly the bytes that were in BUF and were pushed; so the counts add up. -/
def Obligations.PushedBytesAreAllAccountedFor : Prop :=
  ∀ (s : State) (v : Width) (chunks : List (List Byte)), s.w = v.bytes →
    ∃ t new runs, Host.Core.run Sys2Proof.core chunks.length (s.withChunks chunks) = .next t ∧
      t.evt = s.evt ++ new ∧ List.Forall₂ (accountsFor v) new runs ∧
      s.buf ++ chunks.flatten = runs.flatten ++ t.buf ∧
      s.buf.length + chunks.flatten.length = (new.map (consumed v)).sum + t.buf.length

/-- R123: the same bytes in other chunks leave the same BUF, the same EvFrame and EvInvalid events in the same order,
and event lists that are equal once adjacent EvDesync are merged. -/
def Obligations.ChunkBoundariesDoNotMatter : Prop :=
  ∀ (s : State) (v : Width) (xs ys : List (List Byte)), s.w = v.bytes → s.bufWf = true → xs.flatten = ys.flatten →
    ∃ a b newA newB, Host.Core.run Sys2Proof.core xs.length (s.withChunks xs) = .next a ∧
      Host.Core.run Sys2Proof.core ys.length (s.withChunks ys) = .next b ∧
      a.buf = b.buf ∧ a.evt = s.evt ++ newA ∧ b.evt = s.evt ++ newB ∧
      newA.filter (fun e => !isDesync e) = newB.filter (fun e => !isDesync e) ∧
      mergeDesync newA = mergeDesync newB

/-- R124: a concatenation of valid frames, chunked in any way, gives exactly those frames in order and leaves BUF
empty. -/
def Obligations.PackedFramesAreAllDelivered : Prop :=
  ∀ (s : State) (v : Width) (fs : List Frame) (chunks : List (List Byte)), s.w = v.bytes → s.buf = [] →
    (∀ f ∈ fs, f.pl.length ≤ lmax v) → chunks.flatten = (fs.map (Frame.wire v)).flatten →
    ∃ t, Host.Core.run Sys2Proof.core chunks.length (s.withChunks chunks) = .next t ∧
      t.buf = [] ∧ t.evt = s.evt ++ fs.map .evFrame

/-- R126: noise without a marker before a frame, in one chunk, gives its count and then exactly that frame. -/
def Obligations.NoiseThenFrame : Prop :=
  ∀ (s : State) (v : Width) (noise : List Byte) (f : Frame), s.w = v.bytes → s.buf = [] → noise ≠ [] → 0xFE ∉ noise →
    f.pl.length ≤ lmax v →
    exec (.push (noise ++ f.wire v)) s =
      .next { s with evt := s.evt ++ [.evDesync noise.length, .evFrame f] }

/-- R130: the empty chunk changes nothing and emits nothing. -/
def Obligations.EmptyChunkChangesNothing : Prop :=
  ∀ (s : State) (v : Width), s.w = v.bytes →
    (s.buf = [] ∨ (s.buf[0]? = some 0xFE ∧
      exec (.dec1 s.buf 0) s = .next { s with decRsp := s.decRsp ++ [.incomplete] })) →
    exec (.push []) s = .next s

/-- R22, R121: after a PUSH, from whatever BUF, BUF is empty or an undecided candidate behind a marker, and shorter
than the largest frame. -/
def Obligations.BufferAfterPushIsEmptyOrUndecided : Prop :=
  ∀ (s t : State) (v : Width) (chunk : List Byte), s.w = v.bytes → exec (.push chunk) s = .next t →
    (t.buf = [] ∨ (t.buf[0]? = some 0xFE ∧
      exec (.dec1 t.buf 0) t = .next { t with decRsp := t.decRsp ++ [.incomplete] })) ∧ t.buf.length < totalMax v

/-- R12, R125: between operations BUF is so short that with chunks of at most `c` bytes it never holds more than
TOTAL_MAX(W) - 1 + c bytes, even during a PUSH, whose loop never lengthens it. -/
def Obligations.BufferPeakIsBounded : Prop :=
  (∀ (s : State) (v : Width) (chunk : List Byte) (c : Nat), s.wf = true → s.w = v.bytes → chunk.length ≤ c →
      (s.append chunk).buf.length ≤ bufCapNeeded v c) ∧
    ∀ (v : Width) (s t : State), (iteration v s = .continue t ∨ iteration v s = .stop t) →
      t.buf.length ≤ s.buf.length

/-- R122: fewer bytes than the phase asks for bring no verdict; in BODY, as many as it asks for do. -/
def Obligations.PhaseTellsWhenAVerdictComes : Prop :=
  ∀ (s : State) (v : Width) (chunk : List Byte), s.w = v.bytes → s.bufWf = true →
    (chunk.length < bytesNeeded v s.buf →
      ∃ t new, exec (.push chunk) s = .next t ∧ t.evt = s.evt ++ new ∧ ∀ e ∈ new, isDesync e = true) ∧
    (phase v s.buf = .body → bytesNeeded v s.buf ≤ chunk.length →
      ∃ t e new, exec (.push chunk) s = .next t ∧ t.evt = s.evt ++ e :: new ∧ isDesync e = false)

/-! ### The wire formats as arrivals -/

/-- R60, R61, R62, R118: a wire frame that arrives, in the configured format, on an empty BUF is delivered. -/
def Obligations.ArrivingFrameIsDelivered : Prop :=
  ∀ (s : State) (f : Frame), s.buf = [] →
    (s.w = 1 → f.pl.length ≤ 255 →
      exec (.frameW1 f) s = .next { s with evt := s.evt ++ [.evFrame f] }) ∧
    (s.w = 2 → f.pl.length ≤ 65535 →
      exec (.frameW2 f) s = .next { s with evt := s.evt ++ [.evFrame f] })

/-- R66, R200 (the model's reading, log entry 4): an arriving frame is the PUSH of its bytes, read at the configured W,
be it the format's own or not; with a legal W it completes. A payload that no length field of the format can count is
no frame. -/
def Obligations.ArrivingFrameIsThePushOfItsBytes : Prop :=
  ∀ (s : State) (f : Frame),
    (f.pl.length ≤ 255 → exec (.frameW1 f) s = exec (.push (f.wire .one)) s ∧
      ∀ v : Width, s.w = v.bytes → ∃ t, exec (.frameW1 f) s = .next t) ∧
    (f.pl.length ≤ 65535 → exec (.frameW2 f) s = exec (.push (f.wire .two)) s ∧
      ∀ v : Width, s.w = v.bytes → ∃ t, exec (.frameW2 f) s = .next t) ∧
    (255 < f.pl.length → exec (.frameW1 f) s = .refused .noSuchFrame) ∧
    (65535 < f.pl.length → exec (.frameW2 f) s = .refused .noSuchFrame)

/-! ### CLOSE and RESET -/

/-- R140: CLOSE empties BUF, emits nothing (decision D13, log entry 11) and leaves W alone. That it runs at an illegal W
too is the model's reading (log entry 17). -/
def Obligations.CloseDiscardsSilently : Prop :=
  ∀ s : State, exec .close s = .next { s with buf := [] }

/-- R141: CLOSE on an empty BUF changes nothing, and CLOSE twice is CLOSE once. That this includes an illegal W, where
CLOSE runs as well, is the model's reading (log entry 17). -/
def Obligations.CloseIsIdempotent : Prop :=
  (∀ s : State, s.buf = [] → exec .close s = .next s) ∧
    ∀ s t : State, exec .close s = .next t → exec .close t = .next t

/-- R142: RESET empties BUF silently, gives W no value, and leaves the reassembler in phase HUNT; it does what CLOSE
does (decision D14, log entry 11). That W stays is log entry 8; that RESET and CLOSE run at an illegal W too is the
model's reading (log entry 17). -/
def Obligations.ResetOperationEmptiesBuffer : Prop :=
  ∀ s : State, exec .reset s = .next { s with buf := [] } ∧ exec .reset s = exec .close s ∧
    ∀ (v : Width) (t : State), exec .reset s = .next t → phase v t.buf = .hunt

/-- R55, R140: after CLOSE no event depends on a byte pushed before it: the chunks pushed then give what they give a
block that never held anything, whatever BUF and outputs were. -/
def Obligations.NothingPushedBeforeCloseShowsAfterIt : Prop :=
  ∀ (s t fresh : State) (v : Width) (chunks : List (List Byte)), s.w = v.bytes → exec .close s = .next t →
    fresh.w = s.w → fresh.buf = [] →
    ∃ a b new, Host.Core.run Sys2Proof.core chunks.length (t.withChunks chunks) = .next a ∧
      Host.Core.run Sys2Proof.core chunks.length (fresh.withChunks chunks) = .next b ∧
      a.evt = s.evt ++ new ∧ b.evt = fresh.evt ++ new ∧ a.buf = b.buf

/-! ### The step -/

/-- A step runs the instruction that the next transaction's port selects (R73), on the state without that transaction,
and then notes whether a session runs: it does after ENC, DEC1, PUSH and an arriving frame, not after CLOSE, and after
RESET if it did before (R143, R197; the model's own field, log entry 7); with nothing
pending it changes nothing (log entry 13). -/
def Obligations.StepRunsTheSelectedInstruction : Prop :=
  (∀ (s u : State) (t : Transaction) (rest : List Transaction) (i : Instr), s.pending = t :: rest →
      select s.width? t = .operation i → exec i { s with pending := rest } = .next u →
      step s = .next { u with inSession := sessionAfter i s.inSession }) ∧
    (∀ (s : State) (r : Refusal) (t : Transaction) (rest : List Transaction) (i : Instr), s.pending = t :: rest →
      select s.width? t = .operation i → exec i { s with pending := rest } = .refused r → step s = .refused r) ∧
    (∀ running, sessionAfter .close running = false ∧ sessionAfter .reset running = running) ∧
    (∀ (i : Instr) (running : Bool), i ≠ .close → i ≠ .reset → sessionAfter i running = true) ∧
    ∀ s : State, s.pending = [] → step s = .next s

/-- R32, R73, R74: which instruction each port selects, the absent payload included. -/
def Obligations.PortSelectsTheOperation : Prop :=
  ∀ width : Option Width,
    (∀ mt ss op pl, select width (.encReq mt ss op (some pl)) = .operation (.enc mt ss op pl)) ∧
    (∀ mt ss op, select width (.encReq mt ss op none) = .operation (.enc mt ss op [])) ∧
    (∀ buf off, select width (.decReq buf off) = .operation (.dec1 buf off)) ∧
    (∀ (s : State) chunk, ∃ i, select s.width? (.rx chunk) = .operation i ∧ exec i s = exec (.push chunk) s) ∧
    select width .ctlClose = .operation .close ∧ select width .ctlReset = .operation .reset

/-- When the bytes on RX decode, at the configured W, to one whole wire frame, that frame is the instruction run, and
it completes. -/
def Obligations.StepRunsTheDecodedFrame : Prop :=
  ∀ (s : State) (v : Width) (chunk : List Byte) (rest : List Transaction) (i : Instr), s.w = v.bytes →
    s.pending = .rx chunk :: rest → decode v chunk = .ok (i, []) →
    ∃ u, exec i { s with pending := rest } = .next u ∧ step s = .next { u with inSession := true }

/-- R176: a step never faults; it is refused exactly where the host's transaction is one the spec refuses
(`State.admitsNext`). The model's choices in it: a queue of transactions (log entry 5) that may be empty, where the step
changes nothing (log entry 13); when a CFG is admitted (log entry 7); and that CLOSE and RESET are admitted at any W, as
R23, R33, R140 and R142 are read (log entry 17). -/
def Obligations.StepIsRefusedOnlyAtTheBoundary : Prop :=
  ∀ s : State, (s.admitsNext = true → ∃ t, step s = .next t) ∧ (s.admitsNext = false → ∃ r, step s = .refused r)

/-- R21, R26, R169: ENC, DEC1, CLOSE and RESET emit no event, and ENC and DEC1 never touch BUF. -/
def Obligations.OnlyPushEmitsEvents : Prop :=
  ∀ s t : State,
    (∀ mt ss op pl, exec (.enc mt ss op pl) s = .next t → t.evt = s.evt ∧ t.buf = s.buf ∧ t.decRsp = s.decRsp) ∧
    (∀ buf off, exec (.dec1 buf off) s = .next t → t.evt = s.evt ∧ t.buf = s.buf ∧ t.encRsp = s.encRsp) ∧
    (exec .close s = .next t → t.evt = s.evt) ∧ (exec .reset s = .next t → t.evt = s.evt)

/-- R35, R51: what has left a port stays as it left: a step only appends to the outputs. -/
def Obligations.OutputsOnlyGrow : Prop :=
  ∀ s t : State, step s = .next t → s.evt <+: t.evt ∧ s.encRsp <+: t.encRsp ∧ s.decRsp <+: t.decRsp

/-- The opcode table's word, placed as the next transaction, is run as the instruction the decoder reads from it, at
the width of its format (the model's interface, log entry 14). -/
def Obligations.TableWordRunsAsItsInstruction : Prop :=
  ∀ (s : State) (nbits w : Nat) (i : Instr), decodeTableWord nbits w = some i →
    ∃ (v : Width) (u : State), exec i { s with w := v.bytes } = .next u ∧
      step (s.withFetchWord nbits w) = .next { u with inSession := true } ∧
      ((∃ f, i = .frameW1 f ∧ v = .one) ∨ (∃ f, i = .frameW2 f ∧ v = .two))

/-! ### The environment -/

/-- R146, R147: `open()` fails when the resource is unavailable or already open; `close()` runs CLOSE on the block and
is a no-op on a closed connection, after which no chunk reaches the block. The
adapter is the model's (log entry 15); that its close completes also where the block's W is unset or illegal rests on the
model's reading that CLOSE runs there (log entry 17). It ends the session as a CLOSE transaction does (log entry 7). -/
def Obligations.AdapterOpensOnceAndClosesIdempotently : Prop :=
  (∀ a : Adapter, adapterCall (.openConnection false) a = .next (a, .failed .connectionError)) ∧
    (∀ a : Adapter, a.isOpen = true → adapterCall (.openConnection true) a = .next (a, .failed .connectionError)) ∧
    (∀ a : Adapter, a.isOpen = false → adapterCall (.openConnection true) a =
      .next ({ a with isOpen := true, notes := a.notes ++ [.onOpened] }, .done)) ∧
    (∀ a : Adapter, a.isOpen = true → ∃ b, exec .close a.block = .next b ∧ adapterCall .closeConnection a =
      .next ({ a with isOpen := false, block := { b with inSession := false }, notes := a.notes ++ [.onClosed] },
        .done)) ∧
    ∀ a : Adapter, a.isOpen = false → adapterCall .closeConnection a = .next (a, .done) ∧
      ∀ chunk, adapterCall (.chunkRead chunk) a = .next (a, .done)

/-- R148: `send` writes ENC's bytes unchanged in one write and returns them; a failed write is a TransportError; with
EncodeError nothing is written and nothing notified. BUF is never touched. That a failed write records nothing as
written is the model's choice, as is that the encoding comes before the opening, and that the ENC of a failed `send` marks
the session too (log entry 15). -/
def Obligations.AdapterSendWritesWhatEncReturns : Prop :=
  ∀ (a : Adapter) (v : Width) (mt : BitVec 3) (ss : BitVec 5) (op : Byte) (pl : Option (List Byte)) (available : Bool),
    a.block.w = v.bytes →
    ((pl.getD []).length ≤ lmax v → (a.isOpen = true ∨ available = true) →
      ∃ b bytes, exec (.enc mt ss op (pl.getD [])) a.block = .next b ∧ b.encRsp = a.block.encRsp ++ [.ok bytes] ∧
        b.buf = a.block.buf ∧
        (∃ c, adapterCall (.send mt ss op pl available true) a = .next (c, .sent bytes) ∧
          c.block = { b with inSession := true } ∧ c.isOpen = true ∧ c.written = a.written ++ [bytes]) ∧
        ∃ c, adapterCall (.send mt ss op pl available false) a = .next (c, .failed .transportError) ∧
          c.block = { b with inSession := true } ∧ c.written = a.written) ∧
    (lmax v < (pl.getD []).length → ∀ writes, ∃ b, exec (.enc mt ss op (pl.getD [])) a.block = .next b ∧
      adapterCall (.send mt ss op pl available writes) a =
        .next ({ a with block := { b with inSession := true } }, .failed .encodeError))

/-- R149, R205: a chunk read on an open connection is one PUSH, and each of its events becomes one notification, in the
order of emission: an EvFrame `onFrame`, an EvInvalid and an EvDesync an `onError`, each with what the event carries.
The PUSH marks the session as it does in a step (log entries 7 and 15). -/
def Obligations.AdapterNotifiesEveryEventInOrder : Prop :=
  (∀ (a : Adapter) (v : Width) (chunk : List Byte), a.isOpen = true → a.block.w = v.bytes →
    ∃ b new, exec (.push chunk) a.block = .next b ∧ b.evt = a.block.evt ++ new ∧
      adapterCall (.chunkRead chunk) a =
        .next ({ a with block := { b with inSession := true }, notes := a.notes ++ new.map notificationOf }, .done)) ∧
    (∀ f : Frame, notificationOf (.evFrame f) = .onFrame f) ∧
    (∀ (r : Reason) (bytes : List Byte), notificationOf (.evInvalid r bytes) = .onDecodeInvalid r bytes) ∧
    ∀ n : Nat, notificationOf (.evDesync n) = .onStreamDesync n
end

