-- ==== Sys2Proof/Laws/Codec.lean ====
section
/-! SUPPORT. The wire format: the small lemmas of the field functions, and the five shapes of a candidate with what
`judge` says of each. Proofs about DEC1 and PUSH cite the shapes and never unfold `judge`. -/

namespace Sys2Proof

/-! ### Widths -/

@[simp] theorem Width.ofNat?_bytes (v : Width) : Width.ofNat? v.bytes = some v := by cases v <;> rfl

theorem Width.ofNat?_eq_some {n : Nat} {v : Width} : Width.ofNat? n = some v ↔ n = v.bytes := by
  constructor
  · intro h
    unfold Width.ofNat? at h
    split at h <;> simp_all [Width.bytes]
    all_goals subst h; rfl
  · rintro rfl; simp

theorem Width.ofNat?_eq_none {n : Nat} : Width.ofNat? n = none ↔ n ≠ 1 ∧ n ≠ 2 := by
  unfold Width.ofNat?; split <;> simp_all

theorem Width.bytes_pos (v : Width) : 1 ≤ v.bytes := by cases v <;> decide

theorem Width.bytes_le (v : Width) : v.bytes ≤ 2 := by cases v <;> decide

theorem Width.bytes_cases (v : Width) : v.bytes = 1 ∨ v.bytes = 2 := by cases v <;> simp [Width.bytes]

theorem Width.bytes_injective {v u : Width} (h : v.bytes = u.bytes) : v = u := by
  cases v <;> cases u <;> simp_all [Width.bytes]

/-! ### The checksum -/

theorem foldl_xor (acc : Byte) (s : List Byte) : s.foldl (· ^^^ ·) acc = acc ^^^ xor8 s := by
  induction s generalizing acc with
  | nil => simp [xor8]
  | cons b s ih => simp only [xor8, List.foldl_cons]; rw [ih, ih (0 ^^^ b)]; simp [BitVec.xor_assoc]

@[simp] theorem xor8_nil : xor8 [] = 0 := rfl

@[simp] theorem xor8_cons (b : Byte) (s : List Byte) : xor8 (b :: s) = b ^^^ xor8 s := by
  simp [xor8, foldl_xor b s]

@[simp] theorem xor8_append (s t : List Byte) : xor8 (s ++ t) = xor8 s ^^^ xor8 t := by
  induction s with
  | nil => simp
  | cons b s ih => simp [ih, BitVec.xor_assoc]

/-! ### The header byte -/

theorem headerType_packHeader (mt : BitVec 3) (ss : BitVec 5) : headerType (packHeader mt ss) = mt := by
  revert mt ss; decide

theorem headerSubsystem_packHeader (mt : BitVec 3) (ss : BitVec 5) : headerSubsystem (packHeader mt ss) = ss := by
  revert mt ss; decide

theorem packHeader_header (hdr : Byte) : packHeader (headerType hdr) (headerSubsystem hdr) = hdr := by
  revert hdr; decide

/-! ### The length field -/

@[simp] theorem lengthField_length (v : Width) (n : Nat) : (lengthField v n).length = v.bytes := by
  cases v <;> rfl

theorem lmax_one : lmax .one = 255 := rfl

theorem lmax_two : lmax .two = 65535 := rfl

theorem readLength_lengthField (v : Width) (n : Nat) (h : n ≤ lmax v) : readLength v (lengthField v n) = n := by
  cases v
  · rw [lmax_one] at h
    simp only [readLength, lengthField, byteAt, List.getD_cons_zero, BitVec.toNat_ofNat]
    omega
  · rw [lmax_two] at h
    simp only [readLength, lengthField, byteAt, List.getD_cons_zero, List.getD_cons_succ, BitVec.toNat_ofNat]
    omega

/-- Every field of the right size is the field of the length read from it, which the width can say. -/
theorem lengthField_readLength (v : Width) (field : List Byte) (h : field.length = v.bytes) :
    lengthField v (readLength v field) = field ∧ readLength v field ≤ lmax v := by
  cases v
  · obtain ⟨a, rfl⟩ : ∃ a, field = [a] := List.length_eq_one_iff.mp h
    have := a.isLt
    refine ⟨by simp [lengthField, readLength, byteAt], ?_⟩
    rw [lmax_one]; simp only [readLength, byteAt, List.getD_cons_zero]; omega
  · obtain ⟨a, b, rfl⟩ : ∃ a b, field = [a, b] := List.length_eq_two.mp h
    have ha := a.isLt
    have hb := b.isLt
    constructor
    · simp only [lengthField, readLength, byteAt, List.getD_cons_zero, List.getD_cons_succ, List.cons.injEq, and_true]
      constructor <;> apply BitVec.eq_of_toNat_eq <;> simp only [BitVec.toNat_ofNat] <;> omega
    · rw [lmax_two]; simp only [readLength, byteAt, List.getD_cons_zero, List.getD_cons_succ]; omega

/-! ### The frame's bytes -/

/-- The body of 30_encoding.md R65 from its parts. -/
theorem Frame.body_eq (v : Width) (f : Frame) :
    f.body v = lengthField v f.pl.length ++ packHeader f.mt f.ss :: f.op :: f.pl := by
  simp [Frame.body]

@[simp] theorem Frame.body_length (v : Width) (f : Frame) : (f.body v).length = 2 + v.bytes + f.pl.length := by
  simp [Frame.body]; omega

@[simp] theorem Frame.wire_length (v : Width) (f : Frame) : (f.wire v).length = total v f.pl.length := by
  simp [Frame.wire, total]; omega

theorem Frame.wire_eq (v : Width) (f : Frame) :
    f.wire v = sof :: (lengthField v f.pl.length ++ packHeader f.mt f.ss :: f.op :: (f.pl ++ [f.fcs v])) := by
  simp [Frame.wire, Frame.body]

/-! ### The shapes of a candidate -/

/-- DEC1 looks at nothing before the offset (41_frame_decoder.md R100). -/
theorem judge_drop (v : Width) (buf : List Byte) (off : Nat) : judge v buf off = judge v (buf.drop off) 0 := by
  simp [judge, byteAt, slice, List.getD_eq_getElem?_getD, Nat.add_assoc]

@[simp] theorem judge_nil (v : Width) : judge v [] 0 = .incomplete := by simp [judge]

theorem judge_not_marker (v : Width) (b : Byte) (rest : List Byte) (h : b ≠ sof) :
    judge v (b :: rest) 0 = .invalid .badStartMarker [b] := by
  simp [judge, byteAt, h]

theorem judge_no_length (v : Width) (rest : List Byte) (h : rest.length < v.bytes) :
    judge v (sof :: rest) 0 = .incomplete := by
  have : rest.length + 1 < 1 + v.bytes := by omega
  simp [judge, byteAt, this]

theorem judge_short (v : Width) (field rest : List Byte) (hf : field.length = v.bytes)
    (h : rest.length < 3 + readLength v field) : judge v (sof :: (field ++ rest)) 0 = .incomplete := by
  have h1 : ¬ field.length + rest.length + 1 < 1 + v.bytes := by omega
  have h2 : slice (sof :: (field ++ rest)) 1 v.bytes = field := by simp [slice, ← hf]
  have h3 : field.length + rest.length + 1 < total v (readLength v field) := by simp [total]; omega
  have h4 : ¬ field.length + rest.length + 1 < 1 := by omega
  simp [judge, byteAt, h1, h2, h3]

theorem judge_complete (v : Width) (field : List Byte) (hdr op : Byte) (pl : List Byte) (fcs : Byte)
    (rest : List Byte) (hf : field.length = v.bytes) (hl : readLength v field = pl.length) :
    judge v (sof :: (field ++ hdr :: op :: (pl ++ fcs :: rest))) 0 =
      if xor8 (field ++ hdr :: op :: pl) = fcs then
        .frame ⟨headerType hdr, headerSubsystem hdr, op, pl⟩ (total v pl.length)
      else .invalid .checksumMismatch (sof :: (field ++ hdr :: op :: (pl ++ [fcs]))) := by
  have hs : slice (sof :: (field ++ hdr :: op :: (pl ++ fcs :: rest))) 1 v.bytes = field := by simp [slice, ← hf]
  have hlen : (sof :: (field ++ hdr :: op :: (pl ++ fcs :: rest))).length = total v pl.length + rest.length := by
    simp [total, hf]; omega
  have hh : byteAt (sof :: (field ++ hdr :: op :: (pl ++ fcs :: rest))) (0 + 1 + v.bytes) = hdr := by
    rw [show 0 + 1 + v.bytes = v.bytes + 1 by omega]
    simp [byteAt, ← hf]
  have ho : byteAt (sof :: (field ++ hdr :: op :: (pl ++ fcs :: rest))) (0 + 2 + v.bytes) = op := by
    rw [show 0 + 2 + v.bytes = (v.bytes + 1) + 1 by omega]
    simp [byteAt, ← hf]
  have hp : slice (sof :: (field ++ hdr :: op :: (pl ++ fcs :: rest))) (0 + 3 + v.bytes) pl.length = pl := by
    rw [show 0 + 3 + v.bytes = (v.bytes + 2) + 1 by omega]
    have hd : (field.drop (field.length + 2)) = [] := List.drop_of_length_le (by omega)
    simp [slice, ← hf, List.drop_append, hd]
  have hx : byteAt (sof :: (field ++ hdr :: op :: (pl ++ fcs :: rest))) (0 + 3 + v.bytes + pl.length) = fcs := by
    rw [show 0 + 3 + v.bytes + pl.length = (v.bytes + (2 + pl.length)) + 1 by omega]
    simp only [byteAt, ← hf, List.getD_eq_getElem?_getD, List.getElem?_cons_succ]
    rw [List.getElem?_append_right (by omega), show field.length + (2 + pl.length) - field.length = pl.length + 1 + 1 by omega]
    simp
  have hc : slice (sof :: (field ++ hdr :: op :: (pl ++ fcs :: rest))) (0 + 1) (2 + v.bytes + pl.length) =
      field ++ hdr :: op :: pl := by
    simp only [slice, Nat.zero_add, List.drop_succ_cons, List.drop_zero, ← hf]
    rw [show field ++ hdr :: op :: (pl ++ fcs :: rest) = (field ++ hdr :: op :: pl) ++ fcs :: rest by simp]
    rw [List.take_append_of_le_length (by simp; omega), List.take_of_length_le (by simp; omega)]
  have ht : slice (sof :: (field ++ hdr :: op :: (pl ++ fcs :: rest))) 0 (total v pl.length) =
      sof :: (field ++ hdr :: op :: (pl ++ [fcs])) := by
    simp only [slice, List.drop_zero]
    rw [show sof :: (field ++ hdr :: op :: (pl ++ fcs :: rest)) = (sof :: (field ++ hdr :: op :: (pl ++ [fcs]))) ++ rest by simp]
    rw [List.take_append_of_le_length (by simp [total, hf]; omega), List.take_of_length_le (by simp [total, hf]; omega)]
  have hb : byteAt (sof :: (field ++ hdr :: op :: (pl ++ fcs :: rest))) 0 = sof := by simp [byteAt]
  have g1 : ¬ total v pl.length + rest.length - 0 < 1 := by simp [total]
  have g2 : ¬ total v pl.length + rest.length - 0 < 1 + v.bytes := by simp [total]; omega
  have g3 : ¬ total v pl.length + rest.length - 0 < total v pl.length := by omega
  unfold judge
  simp only [hlen, hb, hs, hl, hh, ho, hp, hx, hc, ht, g1, g2, g3, if_false, ne_eq, not_true_eq_false]
  by_cases hq : xor8 (field ++ hdr :: op :: pl) = fcs
  · simp only [hq, not_true_eq_false, if_false, if_true]
  · simp only [hq, not_false_eq_true, if_true, if_false]

/-- The five shapes of a candidate at the front of a buffer, in the order of the steps of 41_frame_decoder.md R90. -/
theorem candidate_shape (v : Width) (buf : List Byte) :
    buf = [] ∨ (∃ b rest, buf = b :: rest ∧ b ≠ sof) ∨ (∃ rest, buf = sof :: rest ∧ rest.length < v.bytes) ∨
      (∃ field rest, buf = sof :: (field ++ rest) ∧ field.length = v.bytes ∧
        rest.length < 3 + readLength v field) ∨
      (∃ field hdr op pl fcs rest, buf = sof :: (field ++ hdr :: op :: (pl ++ fcs :: rest)) ∧
        field.length = v.bytes ∧ readLength v field = pl.length) := by
  rcases buf with _ | ⟨b, r⟩
  · exact .inl rfl
  by_cases hb : b = sof
  swap
  · exact .inr (.inl ⟨b, r, rfl, hb⟩)
  subst hb
  by_cases h1 : r.length < v.bytes
  · exact .inr (.inr (.inl ⟨r, rfl, h1⟩))
  have hf : (r.take v.bytes).length = v.bytes := by simp; omega
  have hr : r = r.take v.bytes ++ r.drop v.bytes := (List.take_append_drop _ _).symm
  generalize r.take v.bytes = field at hf hr
  generalize r.drop v.bytes = q at hr
  subst hr
  by_cases h2 : q.length < 3 + readLength v field
  · exact .inr (.inr (.inr (.inl ⟨field, q, rfl, hf, h2⟩)))
  refine .inr (.inr (.inr (.inr ?_)))
  rcases q with _ | ⟨hdr, _ | ⟨op, q⟩⟩
  · simp at h2
  · simp at h2; omega
  have hp : (q.take (readLength v field)).length = readLength v field := by simp at h2 ⊢; omega
  have hq : q = q.take (readLength v field) ++ q.drop (readLength v field) := (List.take_append_drop _ _).symm
  have hd : 0 < (q.drop (readLength v field)).length := by simp at h2 ⊢; omega
  generalize q.take (readLength v field) = pl at hp hq
  rcases hdq : q.drop (readLength v field) with _ | ⟨fcs, rest⟩
  · simp [hdq] at hd
  rw [hdq] at hq
  exact ⟨field, hdr, op, pl, fcs, rest, by rw [hq], hf, hp.symm⟩

/-! ### What follows from the shapes -/

/-- The judgement of a wire frame with anything after it (40_frame_encoder.md R88). -/
theorem judge_wire (v : Width) (f : Frame) (rest : List Byte) (h : f.fits v = true) :
    judge v (f.wire v ++ rest) 0 = .frame f (total v f.pl.length) := by
  have hl : f.pl.length ≤ lmax v := by simpa [Frame.fits] using h
  have := judge_complete v (lengthField v f.pl.length) (packHeader f.mt f.ss) f.op f.pl (f.fcs v) rest
    (lengthField_length _ _) (readLength_lengthField v _ hl)
  rw [Frame.wire_eq]
  simp only [List.cons_append, List.append_assoc, List.nil_append]
  rw [this, if_pos (by simp [Frame.fcs, Frame.body]), headerType_packHeader, headerSubsystem_packHeader]

/-- Everything a Frame result says: the bytes are the frame's wire bytes and then the rest. -/
theorem judge_frame {v : Width} {buf : List Byte} {f : Frame} {n : Nat} (h : judge v buf 0 = .frame f n) :
    f.fits v = true ∧ n = total v f.pl.length ∧ ∃ rest, buf = f.wire v ++ rest := by
  rcases candidate_shape v buf with rfl | ⟨b, r, rfl, hb⟩ | ⟨r, rfl, hr⟩ | ⟨fd, r, rfl, hf, hr⟩ | ⟨fd, hdr, op, pl, fcs, r, rfl, hf, hl⟩
  · simp at h
  · rw [judge_not_marker v b r hb] at h; simp at h
  · rw [judge_no_length v r hr] at h; simp at h
  · rw [judge_short v fd r hf hr] at h; simp at h
  · rw [judge_complete v fd hdr op pl fcs r hf hl] at h
    split at h
    · rename_i hx
      injection h with h1 h2
      subst h1
      have hfl := lengthField_readLength v fd hf
      rw [hl] at hfl
      refine ⟨by simpa [Frame.fits] using hfl.2, h2.symm, r, ?_⟩
      rw [Frame.wire_eq]
      simp only [Frame.fcs, Frame.body_eq, packHeader_header, hfl.1, hx]
      simp
    · simp at h

/-- Everything an Invalid result says. -/
theorem judge_invalid {v : Width} {buf : List Byte} {r : Reason} {tag : List Byte} (h : judge v buf 0 = .invalid r tag) :
    (r = .badStartMarker ∧ ∃ b rest, buf = b :: rest ∧ b ≠ sof ∧ tag = [b]) ∨
      (r = .checksumMismatch ∧ ∃ field hdr op pl fcs rest, tag = sof :: (field ++ hdr :: op :: (pl ++ [fcs])) ∧
        buf = tag ++ rest ∧ field.length = v.bytes ∧ readLength v field = pl.length ∧
        xor8 (field ++ hdr :: op :: pl) ≠ fcs) := by
  rcases candidate_shape v buf with rfl | ⟨b, q, rfl, hb⟩ | ⟨q, rfl, hr⟩ | ⟨fd, q, rfl, hf, hr⟩ | ⟨fd, hdr, op, pl, fcs, q, rfl, hf, hl⟩
  · simp at h
  · rw [judge_not_marker v b q hb] at h
    injection h with h1 h2
    exact .inl ⟨h1.symm, b, q, rfl, hb, h2.symm⟩
  · rw [judge_no_length v q hr] at h; simp at h
  · rw [judge_short v fd q hf hr] at h; simp at h
  · rw [judge_complete v fd hdr op pl fcs q hf hl] at h
    split at h
    · simp at h
    · rename_i hx
      injection h with h1 h2
      exact .inr ⟨h1.symm, fd, hdr, op, pl, fcs, q, h2.symm, by rw [← h2]; simp, hf, hl, hx⟩

/-- A decided outcome is stable (41_frame_decoder.md R105). -/
theorem judge_append {v : Width} {buf : List Byte} (h : judge v buf 0 ≠ .incomplete) (more : List Byte) :
    judge v (buf ++ more) 0 = judge v buf 0 := by
  rcases candidate_shape v buf with rfl | ⟨b, q, rfl, hb⟩ | ⟨q, rfl, hr⟩ | ⟨fd, q, rfl, hf, hr⟩ | ⟨fd, hdr, op, pl, fcs, q, rfl, hf, hl⟩
  · simp at h
  · rw [List.cons_append, judge_not_marker v b _ hb, judge_not_marker v b _ hb]
  · exact absurd (judge_no_length v q hr) h
  · exact absurd (judge_short v fd q hf hr) h
  · have e : sof :: (fd ++ hdr :: op :: (pl ++ fcs :: q)) ++ more = sof :: (fd ++ hdr :: op :: (pl ++ fcs :: (q ++ more))) := by
      simp
    rw [e, judge_complete v fd hdr op pl fcs _ hf hl, judge_complete v fd hdr op pl fcs _ hf hl]

/-- An undecided candidate is shorter than the largest frame (42_stream_reassembler.md R121). -/
theorem judge_incomplete_length {v : Width} {buf : List Byte} (h : judge v buf 0 = .incomplete) :
    buf.length < totalMax v := by
  rcases candidate_shape v buf with rfl | ⟨b, q, rfl, hb⟩ | ⟨q, rfl, hr⟩ | ⟨fd, q, rfl, hf, hr⟩ | ⟨fd, hdr, op, pl, fcs, q, rfl, hf, hl⟩
  · simp [totalMax, total]
  · rw [judge_not_marker v b q hb] at h; simp at h
  · simp [totalMax, total]; omega
  · have := (lengthField_readLength v fd hf).2
    simp [totalMax, total]; omega
  · rw [judge_complete v fd hdr op pl fcs q hf hl] at h
    split at h <;> simp at h

end Sys2Proof
end

