-- ==== Sys2Proof/Laws/State.lean ====
section
/-! SUPPORT. One lemma per field per update of State, true by rfl, so that no proof unfolds a record update. -/

namespace Sys2Proof.Machine

variable (s : State)

@[simp] theorem State.append_w (c : List Byte) : (s.append c).w = s.w := rfl
@[simp] theorem State.append_buf (c : List Byte) : (s.append c).buf = s.buf ++ c := rfl
@[simp] theorem State.append_encRsp (c : List Byte) : (s.append c).encRsp = s.encRsp := rfl
@[simp] theorem State.append_decRsp (c : List Byte) : (s.append c).decRsp = s.decRsp := rfl
@[simp] theorem State.append_evt (c : List Byte) : (s.append c).evt = s.evt := rfl
@[simp] theorem State.append_inSession (c : List Byte) : (s.append c).inSession = s.inSession := rfl
@[simp] theorem State.append_pending (c : List Byte) : (s.append c).pending = s.pending := rfl

@[simp] theorem State.evict_w (n : Nat) : (s.evict n).w = s.w := rfl
@[simp] theorem State.evict_buf (n : Nat) : (s.evict n).buf = s.buf.drop n := rfl
@[simp] theorem State.evict_encRsp (n : Nat) : (s.evict n).encRsp = s.encRsp := rfl
@[simp] theorem State.evict_decRsp (n : Nat) : (s.evict n).decRsp = s.decRsp := rfl
@[simp] theorem State.evict_evt (n : Nat) : (s.evict n).evt = s.evt := rfl
@[simp] theorem State.evict_inSession (n : Nat) : (s.evict n).inSession = s.inSession := rfl
@[simp] theorem State.evict_pending (n : Nat) : (s.evict n).pending = s.pending := rfl

@[simp] theorem State.clear_w : (s.clear).w = s.w := rfl
@[simp] theorem State.clear_buf : (s.clear).buf = [] := rfl
@[simp] theorem State.clear_encRsp : (s.clear).encRsp = s.encRsp := rfl
@[simp] theorem State.clear_decRsp : (s.clear).decRsp = s.decRsp := rfl
@[simp] theorem State.clear_evt : (s.clear).evt = s.evt := rfl
@[simp] theorem State.clear_inSession : (s.clear).inSession = s.inSession := rfl
@[simp] theorem State.clear_pending : (s.clear).pending = s.pending := rfl

@[simp] theorem State.emit_w (e : Event) : (s.emit e).w = s.w := rfl
@[simp] theorem State.emit_buf (e : Event) : (s.emit e).buf = s.buf := rfl
@[simp] theorem State.emit_encRsp (e : Event) : (s.emit e).encRsp = s.encRsp := rfl
@[simp] theorem State.emit_decRsp (e : Event) : (s.emit e).decRsp = s.decRsp := rfl
@[simp] theorem State.emit_evt (e : Event) : (s.emit e).evt = s.evt ++ [e] := rfl
@[simp] theorem State.emit_inSession (e : Event) : (s.emit e).inSession = s.inSession := rfl
@[simp] theorem State.emit_pending (e : Event) : (s.emit e).pending = s.pending := rfl

@[simp] theorem State.respondEnc_w (r : EncResult) : (s.respondEnc r).w = s.w := rfl
@[simp] theorem State.respondEnc_buf (r : EncResult) : (s.respondEnc r).buf = s.buf := rfl
@[simp] theorem State.respondEnc_encRsp (r : EncResult) : (s.respondEnc r).encRsp = s.encRsp ++ [r] := rfl
@[simp] theorem State.respondEnc_decRsp (r : EncResult) : (s.respondEnc r).decRsp = s.decRsp := rfl
@[simp] theorem State.respondEnc_evt (r : EncResult) : (s.respondEnc r).evt = s.evt := rfl
@[simp] theorem State.respondEnc_inSession (r : EncResult) : (s.respondEnc r).inSession = s.inSession := rfl
@[simp] theorem State.respondEnc_pending (r : EncResult) : (s.respondEnc r).pending = s.pending := rfl

@[simp] theorem State.respondDec_w (r : DecResult) : (s.respondDec r).w = s.w := rfl
@[simp] theorem State.respondDec_buf (r : DecResult) : (s.respondDec r).buf = s.buf := rfl
@[simp] theorem State.respondDec_encRsp (r : DecResult) : (s.respondDec r).encRsp = s.encRsp := rfl
@[simp] theorem State.respondDec_decRsp (r : DecResult) : (s.respondDec r).decRsp = s.decRsp ++ [r] := rfl
@[simp] theorem State.respondDec_evt (r : DecResult) : (s.respondDec r).evt = s.evt := rfl
@[simp] theorem State.respondDec_inSession (r : DecResult) : (s.respondDec r).inSession = s.inSession := rfl
@[simp] theorem State.respondDec_pending (r : DecResult) : (s.respondDec r).pending = s.pending := rfl

@[simp] theorem State.setSession_w (b : Bool) : (s.setSession b).w = s.w := rfl
@[simp] theorem State.setSession_buf (b : Bool) : (s.setSession b).buf = s.buf := rfl
@[simp] theorem State.setSession_encRsp (b : Bool) : (s.setSession b).encRsp = s.encRsp := rfl
@[simp] theorem State.setSession_decRsp (b : Bool) : (s.setSession b).decRsp = s.decRsp := rfl
@[simp] theorem State.setSession_evt (b : Bool) : (s.setSession b).evt = s.evt := rfl
@[simp] theorem State.setSession_inSession (b : Bool) : (s.setSession b).inSession = b := rfl
@[simp] theorem State.setSession_pending (b : Bool) : (s.setSession b).pending = s.pending := rfl

@[simp] theorem State.setWidth_w (n : Nat) : (s.setWidth n).w = n := rfl
@[simp] theorem State.setWidth_buf (n : Nat) : (s.setWidth n).buf = s.buf := rfl
@[simp] theorem State.setWidth_encRsp (n : Nat) : (s.setWidth n).encRsp = s.encRsp := rfl
@[simp] theorem State.setWidth_decRsp (n : Nat) : (s.setWidth n).decRsp = s.decRsp := rfl
@[simp] theorem State.setWidth_evt (n : Nat) : (s.setWidth n).evt = s.evt := rfl
@[simp] theorem State.setWidth_inSession (n : Nat) : (s.setWidth n).inSession = s.inSession := rfl
@[simp] theorem State.setWidth_pending (n : Nat) : (s.setWidth n).pending = s.pending := rfl

@[simp] theorem State.setPending_w (ts : List Transaction) : (s.setPending ts).w = s.w := rfl
@[simp] theorem State.setPending_buf (ts : List Transaction) : (s.setPending ts).buf = s.buf := rfl
@[simp] theorem State.setPending_encRsp (ts : List Transaction) : (s.setPending ts).encRsp = s.encRsp := rfl
@[simp] theorem State.setPending_decRsp (ts : List Transaction) : (s.setPending ts).decRsp = s.decRsp := rfl
@[simp] theorem State.setPending_evt (ts : List Transaction) : (s.setPending ts).evt = s.evt := rfl
@[simp] theorem State.setPending_inSession (ts : List Transaction) : (s.setPending ts).inSession = s.inSession := rfl
@[simp] theorem State.setPending_pending (ts : List Transaction) : (s.setPending ts).pending = ts := rfl

@[simp] theorem State.withChunks_w (cs : List (List Byte)) : (s.withChunks cs).w = s.w := rfl
@[simp] theorem State.withChunks_buf (cs : List (List Byte)) : (s.withChunks cs).buf = s.buf := rfl
@[simp] theorem State.withChunks_encRsp (cs : List (List Byte)) : (s.withChunks cs).encRsp = s.encRsp := rfl
@[simp] theorem State.withChunks_decRsp (cs : List (List Byte)) : (s.withChunks cs).decRsp = s.decRsp := rfl
@[simp] theorem State.withChunks_evt (cs : List (List Byte)) : (s.withChunks cs).evt = s.evt := rfl
@[simp] theorem State.withChunks_inSession (cs : List (List Byte)) : (s.withChunks cs).inSession = s.inSession := rfl
@[simp] theorem State.withChunks_pending (cs : List (List Byte)) : (s.withChunks cs).pending = cs.map .rx := rfl

end Sys2Proof.Machine
end

