-- ==== Sys2Proof/Laws/Reassembler.lean ====
section
/-! SUPPORT. PUSH said once: a big-step relation with one rule per way an iteration can end
(spec/42_stream_reassembler.md R131), and the proof that the loop does exactly what it says. Proofs about PUSH go by
induction over the relation and never unfold the loop. -/

namespace Sys2Proof.Machine

/-! ### The scan for the marker -/

theorem markerIndex_none {m : List Byte} (h : sof ∉ m) : markerIndex m = none := by
  induction m with
  | nil => rfl
  | cons b m ih =>
    simp only [List.mem_cons, not_or] at h
    simp [markerIndex, Ne.symm h.1, ih h.2]

theorem markerIndex_some {noise : List Byte} (h : sof ∉ noise) (rest : List Byte) :
    markerIndex (noise ++ sof :: rest) = some noise.length := by
  induction noise with
  | nil => simp [markerIndex]
  | cons b noise ih =>
    simp only [List.mem_cons, not_or] at h
    simp [markerIndex, Ne.symm h.1, ih h.2]

/-! ### One iteration -/

/-- The notice for `n` discarded bytes: none for zero (60_exceptions.md R163). -/
def desyncOf (n : Nat) : List Event := if n = 0 then [] else [.evDesync n]

theorem take_noise (s : State) (n : Nat) :
    s.take (.noise n) = { s with buf := s.buf.drop n, evt := s.evt ++ desyncOf n } := by
  by_cases h : n = 0 <;> simp [State.take, desyncOf, h, State.evict, State.emit]

theorem take_noMarker (s : State) :
    s.take .noMarker = { s with buf := [], evt := s.evt ++ desyncOf s.buf.length } := by
  by_cases h : s.buf = []
  · simp only [State.take, h, if_true, desyncOf, List.length_nil, List.append_nil]; rw [← h]
  · simp [State.take, desyncOf, h, State.clear, State.emit]

theorem iteration_noMarker {v : Width} {s : State} (h : sof ∉ s.buf) :
    iteration v s = .stop { s with buf := [], evt := s.evt ++ desyncOf s.buf.length } := by
  simp [iteration, markerIndex_none h, take_noMarker]

theorem iteration_waits {v : Width} {s : State} {noise cand : List Byte} (hb : s.buf = noise ++ sof :: cand)
    (hn : sof ∉ noise) (hj : judge v (sof :: cand) 0 = .incomplete) :
    iteration v s = .stop { s with buf := sof :: cand, evt := s.evt ++ desyncOf noise.length } := by
  simp [iteration, hb, markerIndex_some hn, take_noise, hj]

theorem iteration_invalid {v : Width} {s : State} {noise cand tag : List Byte} {r : Reason}
    (hb : s.buf = noise ++ sof :: cand) (hn : sof ∉ noise) (hj : judge v (sof :: cand) 0 = .invalid r tag) :
    iteration v s =
      .continue { s with buf := cand, evt := s.evt ++ (desyncOf noise.length ++ [.evInvalid r tag]) } := by
  simp only [iteration, hb, markerIndex_some hn, take_noise, List.drop_left, hj]
  simp [State.take, State.emit, State.evict]

theorem iteration_frame {v : Width} {s : State} {noise rest : List Byte} {f : Frame} (hf : f.fits v = true)
    (hb : s.buf = noise ++ (f.wire v ++ rest)) (hn : sof ∉ noise) :
    iteration v s =
      .continue { s with buf := rest, evt := s.evt ++ (desyncOf noise.length ++ [.evFrame f]) } := by
  have hm : markerIndex (noise ++ (f.wire v ++ rest)) = some noise.length := by
    rw [Frame.wire_eq, List.cons_append]; exact markerIndex_some hn _
  simp only [iteration, hb, hm, take_noise, List.drop_left, judge_wire v f rest hf]
  rw [State.emit, State.evict, ← Frame.wire_length v f]
  simp only [List.drop_left, List.append_assoc]

/-! ### The whole pass -/

/-- `Reassembles v m events rest`: a pass over the buffer content `m` emits `events` and leaves `rest`. -/
inductive Reassembles (v : Width) : Memory → List Event → Memory → Prop where
  /-- no start marker: everything is discarded (R113) -/
  | noMarker {m : Memory} (hn : sof ∉ m) : Reassembles v m (desyncOf m.length) []
  /-- the first candidate is undecided: the pass stops and keeps it (R114, R116) -/
  | waits {noise cand : Memory} (hn : sof ∉ noise) (hj : judge v (sof :: cand) 0 = .incomplete) :
      Reassembles v (noise ++ sof :: cand) (desyncOf noise.length) (sof :: cand)
  /-- the first candidate fails: its marker alone is dropped and the pass goes on (R114, R117) -/
  | invalid {noise cand tag : Memory} {r : Reason} {events : List Event} {rest : Memory} (hn : sof ∉ noise)
      (hj : judge v (sof :: cand) 0 = .invalid r tag) (next : Reassembles v cand events rest) :
      Reassembles v (noise ++ sof :: cand) (desyncOf noise.length ++ .evInvalid r tag :: events) rest
  /-- the first candidate is a frame: it is evicted whole and the pass goes on (R114, R118) -/
  | frame {noise more : Memory} {f : Frame} {events : List Event} {rest : Memory} (hn : sof ∉ noise)
      (hf : f.fits v = true) (next : Reassembles v more events rest) :
      Reassembles v (noise ++ (f.wire v ++ more)) (desyncOf noise.length ++ .evFrame f :: events) rest

/-- Every buffer content has a pass: each iteration evicts at least one byte (R119). -/
theorem reassembles_exists (v : Width) (m : Memory) : ∃ events rest, Reassembles v m events rest := by
  induction hlen : m.length using Nat.strong_induction_on generalizing m with
  | _ n ih =>
    subst hlen
    by_cases hm : sof ∈ m
    swap
    · exact ⟨_, _, .noMarker hm⟩
    obtain ⟨noise, cand, rfl, hn⟩ := List.eq_append_cons_of_mem hm
    rcases hj : judge v (sof :: cand) 0 with ⟨f, n⟩ | _ | ⟨r, tag⟩
    · obtain ⟨hf, rfl, more, hw⟩ := judge_frame hj
      have hl : (f.wire v).length = total v f.pl.length := Frame.wire_length v f
      obtain ⟨events, rest, h⟩ := ih more.length (by
        rw [List.length_append, hw, List.length_append, hl, total]; omega) more rfl
      rw [hw]
      exact ⟨_, _, .frame hn hf h⟩
    · exact ⟨_, _, .waits hn hj⟩
    · obtain ⟨events, rest, h⟩ := ih cand.length (by simp; omega) cand rfl
      exact ⟨_, _, .invalid hn hj h⟩

/-- The loop does what the pass says, with any fuel above the buffer's length (R119). -/
theorem loop_eq {v : Width} {m : Memory} {events : List Event} {rest : Memory} (h : Reassembles v m events rest) :
    ∀ (s : State) (fuel : Nat), s.buf = m → m.length < fuel →
      loop v fuel s = { s with buf := rest, evt := s.evt ++ events } := by
  induction h with
  | @noMarker m hn =>
    intro s fuel hb hk
    obtain ⟨k, rfl⟩ := Nat.exists_eq_succ_of_ne_zero (by omega : fuel ≠ 0)
    subst hb
    simp [loop, iteration_noMarker hn]
  | waits hn hj =>
    intro s fuel hb hk
    obtain ⟨k, rfl⟩ := Nat.exists_eq_succ_of_ne_zero (by omega : fuel ≠ 0)
    simp [loop, iteration_waits hb hn hj]
  | invalid hn hj _ ih =>
    intro s fuel hb hk
    obtain ⟨k, rfl⟩ := Nat.exists_eq_succ_of_ne_zero (by omega : fuel ≠ 0)
    simp only [loop, iteration_invalid hb hn hj]
    rw [ih _ k rfl (by simp at hk; omega)]
    simp
  | @frame noise more f _ _ hn hf _ ih =>
    intro s fuel hb hk
    obtain ⟨k, rfl⟩ := Nat.exists_eq_succ_of_ne_zero (by omega : fuel ≠ 0)
    simp only [loop, iteration_frame hf hb hn]
    rw [ih _ k rfl (by simp [total] at hk; omega)]
    simp

/-- What a PUSH under a legal width leaves, read off a pass over the old buffer and the chunk. -/
theorem pushChunk_eq {v : Width} {chunk : List Byte} {s : State} {events : List Event} {rest : Memory}
    (h : Reassembles v (s.buf ++ chunk) events rest) :
    pushChunk v chunk s = { s with buf := rest, evt := s.evt ++ events } := by
  unfold pushChunk
  rw [loop_eq h (s.append chunk) _ rfl (by simp)]
  rfl

/-- The result of a pass is unique. -/
theorem Reassembles.unique {v : Width} {m : Memory} {e1 e2 : List Event} {r1 r2 : Memory}
    (h1 : Reassembles v m e1 r1) (h2 : Reassembles v m e2 r2) : e1 = e2 ∧ r1 = r2 := by
  have a := loop_eq h1 { State.reset with buf := m } (m.length + 1) rfl (by omega)
  have b := loop_eq h2 { State.reset with buf := m } (m.length + 1) rfl (by omega)
  rw [a] at b
  injection b with _ hb _ _ he
  exact ⟨by simpa using he, hb⟩

/-- PUSH by a pass: from a pass over the old buffer and the chunk, the next state. -/
theorem execPush_eq {v : Width} {chunk : List Byte} {s : State} {events : List Event} {rest : Memory}
    (hw : s.w = v.bytes) (h : Reassembles v (s.buf ++ chunk) events rest) :
    execPush chunk s = .next { s with buf := rest, evt := s.evt ++ events } := by
  have hv : s.width? = some v := by simp [State.width?, hw]
  simp only [execPush, withWidth, hv, pushChunk_eq h]

/-- Everything a PUSH can do: with a legal width it runs one pass over the old buffer and the chunk. -/
theorem execPush_next {chunk : List Byte} {s t : State} (h : execPush chunk s = .next t) :
    ∃ v events rest, s.w = v.bytes ∧ Reassembles v (s.buf ++ chunk) events rest ∧
      t = { s with buf := rest, evt := s.evt ++ events } := by
  rcases hw : s.width? with _ | v
  · simp [execPush, withWidth, hw] at h
  · have hv := Width.ofNat?_eq_some.mp hw
    obtain ⟨events, rest, hr⟩ := reassembles_exists v (s.buf ++ chunk)
    rw [execPush_eq hv hr] at h
    injection h with h
    exact ⟨v, events, rest, hv, hr, h.symm⟩

/-- BUF after a pass has the form it has between operations (10_state.md R22, R121). -/
theorem Reassembles.rest_wf {v : Width} {m rest : Memory} {events : List Event} (h : Reassembles v m events rest) :
    rest.wf v = true := by
  induction h with
  | noMarker _ => rfl
  | waits _ hj => simp [Memory.wf, byteAt, hj]
  | invalid _ _ _ ih => exact ih
  | frame _ _ _ ih => exact ih

theorem desyncOf_wf (n : Nat) : (desyncOf n).all eventWf = true := by
  unfold desyncOf; split
  · rfl
  · simp [eventWf]; omega

theorem Frame.fits_two {v : Width} {f : Frame} (h : f.fits v = true) : f.fits .two = true := by
  cases v
  · have h1 : f.pl.length ≤ 255 := of_decide_eq_true h
    exact decide_eq_true (show f.pl.length ≤ 65535 by omega)
  · exact h

/-- The events of a pass have their forms (R120, 60_exceptions.md R163). -/
theorem Reassembles.events_wf {v : Width} {m rest : Memory} {events : List Event} (h : Reassembles v m events rest) :
    events.all eventWf = true := by
  induction h with
  | noMarker _ => exact desyncOf_wf _
  | waits _ _ => exact desyncOf_wf _
  | invalid hn hj _ ih =>
    rw [List.all_append, desyncOf_wf, List.all_cons, ih]
    rcases judge_invalid hj with ⟨_, b, q, hb, hne, _⟩ | ⟨rfl, fd, hdr, op, pl, fcs, q, ht, _, hf, _⟩
    · injection hb with hb _; exact absurd hb.symm hne
    · have := Width.bytes_pos v
      rw [ht]; simp [eventWf, byteAt]; omega
  | frame hn hf _ ih =>
    rw [List.all_append, desyncOf_wf, List.all_cons, ih]
    simp [eventWf, Frame.fits_two hf]

end Sys2Proof.Machine
end

