-- ==== Sys2Proof/Laws/Step.lean ====
section
/-! SUPPORT. One lemma per meaning, and once for all what an operation, a configuration and a step can do. Proofs about
the machine cite these and do not unfold `exec` or `step`. -/

namespace Sys2Proof.Machine

theorem width?_eq {s : State} {v : Width} (h : s.w = v.bytes) : s.width? = some v := by simp [State.width?, h]

theorem width?_some {s : State} {v : Width} (h : s.width? = some v) : s.w = v.bytes := Width.ofNat?_eq_some.mp h

theorem withWidth_eq {s : State} {v : Width} (h : s.w = v.bytes) (run : Width → State) :
    withWidth s run = .next (run v) := by
  simp [withWidth, width?_eq h]

theorem withWidth_next {s t : State} {run : Width → State} (h : withWidth s run = .next t) :
    ∃ v, s.w = v.bytes ∧ t = run v := by
  unfold withWidth at h
  split at h
  · rename_i v hv
    injection h with h
    exact ⟨v, width?_some hv, h.symm⟩
  · simp at h

/-! ### The meanings -/

theorem exec_enc {s : State} {v : Width} (h : s.w = v.bytes) (mt : BitVec 3) (ss : BitVec 5) (op : Byte)
    (pl : List Byte) : exec (.enc mt ss op pl) s =
      .next { s with encRsp := s.encRsp ++ [serialize v ⟨mt, ss, op, pl⟩] } := by
  simp only [exec, execEnc, withWidth_eq h, frameOperand]
  cases hq : serialize v ⟨mt, ss, op, pl⟩ <;> rfl

theorem exec_dec1 {s : State} {v : Width} (h : s.w = v.bytes) (buf : List Byte) (off : Nat) :
    exec (.dec1 buf off) s = .next { s with decRsp := s.decRsp ++ [judge v buf off] } := by
  simp only [exec, execDec1, withWidth_eq h]
  cases hq : judge v buf off <;> rfl

theorem deliver_ok {v : Width} {f : Frame} (h : f.pl.length ≤ lmax v) (s : State) :
    deliver (serialize v f) s = execPush (f.wire v) s := by
  simp [deliver, serialize, Nat.not_lt.mpr h, execPush]

theorem deliver_tooLong {v : Width} {f : Frame} (h : lmax v < f.pl.length) (s : State) :
    deliver (serialize v f) s = .refused .noSuchFrame := by
  simp [deliver, serialize, h]

/-- What an arriving frame can do: it is a PUSH of some chunk. -/
theorem deliver_next {v : Width} {f : Frame} {s t : State} (h : deliver (serialize v f) s = .next t) :
    execPush (f.wire v) s = .next t := by
  by_cases hl : f.pl.length ≤ lmax v
  · rwa [deliver_ok hl] at h
  · rw [deliver_tooLong (by omega)] at h; simp at h

/-! ### What an operation, a configuration and a step can do -/

/-- Everything an operation can do when it answers a next state: return one result of ENC or of DEC1, run one pass of
the reassembler, or empty BUF. -/
theorem exec_next {i : Instr} {s t : State} (h : exec i s = .next t) :
    (∃ (v : Width) (f : Frame), s.w = v.bytes ∧
      t = { s with encRsp := s.encRsp ++ [serialize v f] }) ∨
    (∃ (v : Width) (buf : List Byte) (off : Nat), s.w = v.bytes ∧
      t = { s with decRsp := s.decRsp ++ [judge v buf off] }) ∨
    (∃ (v : Width) (chunk : List Byte) (events : List Event) (rest : Memory), s.w = v.bytes ∧
      Reassembles v (s.buf ++ chunk) events rest ∧
      t = { s with buf := rest, evt := s.evt ++ events }) ∨
    t = { s with buf := [] } := by
  have ofPush : ∀ chunk, execPush chunk s = .next t →
      ∃ (v : Width) (chunk : List Byte) (events : List Event) (rest : Memory), s.w = v.bytes ∧
        Reassembles v (s.buf ++ chunk) events rest ∧
        t = { s with buf := rest, evt := s.evt ++ events } := by
    intro chunk hc
    obtain ⟨v, events, rest, hv, hr, ht⟩ := execPush_next hc
    exact ⟨v, chunk, events, rest, hv, hr, ht⟩
  cases i with
  | frameW1 f => exact .inr (.inr (.inl (ofPush _ (deliver_next h))))
  | frameW2 f => exact .inr (.inr (.inl (ofPush _ (deliver_next h))))
  | enc mt ss op pl =>
    obtain ⟨v, hv, _⟩ := withWidth_next h
    rw [exec_enc hv] at h
    injection h with h
    exact .inl ⟨v, _, hv, h.symm⟩
  | dec1 buf off =>
    obtain ⟨v, hv, _⟩ := withWidth_next h
    rw [exec_dec1 hv] at h
    injection h with h
    exact .inr (.inl ⟨v, buf, off, hv, h.symm⟩)
  | push chunk => exact .inr (.inr (.inl (ofPush chunk h)))
  | close => injection h with h; exact .inr (.inr (.inr h.symm))
  | reset => injection h with h; exact .inr (.inr (.inr h.symm))

/-- Everything a configuration can do when it answers a next state. -/
theorem configure_next {n : Nat} {s t : State} (h : configure n s = .next t) :
    ∃ v : Width, n = v.bytes ∧ (s.inSession = false ∨ s.w = n) ∧ t = { s with w := n } := by
  unfold configure at h
  split at h
  · simp at h
  · rename_i v hv
    split at h
    · simp at h
    · rename_i hc
      injection h with h
      refine ⟨v, Width.ofNat?_eq_some.mp hv, ?_, h.symm⟩
      by_cases hs : s.inSession = true
      · right; by_contra hne; exact hc ⟨hs, hne⟩
      · left; simpa using hs

/-- No operation writes the session mark: only the step does. -/
theorem exec_inSession {i : Instr} {s t : State} (h : exec i s = .next t) : t.inSession = s.inSession := by
  rcases exec_next h with ⟨_, _, _, rfl⟩ | ⟨_, _, _, _, rfl⟩ | ⟨_, _, _, _, _, _, rfl⟩ | rfl <;> rfl

/-- Everything a step can do when it answers a next state: nothing, one configuration, or one operation with the
session noted. -/
theorem step_next {s t : State} (h : step s = .next t) :
    t = s ∨ (∃ rest n, configure n (s.setPending rest) = .next t) ∨
      ∃ rest i u, exec i (s.setPending rest) = .next u ∧ t = { u with inSession := sessionAfter i s.inSession } := by
  unfold step at h
  split at h
  · injection h with h; exact .inl h.symm
  · rename_i t0 rest _
    split at h
    · rename_i i _
      unfold noteSession at h
      split at h
      · rename_i u hu
        injection h with h
        have hs : u.inSession = s.inSession := exec_inSession (s := s.setPending rest) hu
        exact .inr (.inr ⟨rest, i, u, hu, by rw [← hs]; exact h.symm⟩)
      · simp at h
      · simp at h
    · exact .inr (.inl ⟨rest, _, h⟩)

/-- The invariant as a conjunction. -/
theorem wf_iff (s : State) : s.wf = true ↔ s.w ≤ 2 ∧ s.bufWf = true ∧ (s.inSession = true ∨ s.buf = []) ∧
    (s.inSession = false ∨ s.w ≠ 0) ∧ s.encRsp.all encResultWf = true ∧ s.decRsp.all decResultWf = true ∧
    s.evt.all eventWf = true := by
  simp [State.wf, and_assoc]

end Sys2Proof.Machine
end

