-- ==== Sys2Proof/Laws/Memory.lean ====
section
/-! SUPPORT. BUF as a memory: the laws of its primitives (spec/20_memory.md R47), and that every operation that writes
it leaves it in its form between operations (10_state.md R22). -/

namespace Sys2Proof.Machine

/-- Reading back what was appended. -/
theorem memRead_append (s : State) (chunk : List Byte) :
    (s.append chunk).memRead s.buf.length chunk.length = some chunk := by
  simp [State.memRead, slice]

/-- An Append changes no byte that was there. -/
theorem memRead_append_old (s : State) (chunk : List Byte) {i n : Nat} (h : i + n ≤ s.buf.length) :
    (s.append chunk).memRead i n = s.memRead i n := by
  have h1 : i + n ≤ s.buf.length + chunk.length := by omega
  simp [State.memRead, slice, h, h1, List.drop_append_of_le_length (show i ≤ s.buf.length by omega),
    List.take_append_of_le_length (show n ≤ (s.buf.drop i).length by simp; omega)]

/-- An Evict moves what remains to the front and changes none of it. -/
theorem memRead_evict (s : State) {k i n : Nat} (h : k ≤ s.buf.length) :
    (s.evict k).memRead i n = s.memRead (k + i) n := by
  have : i + n ≤ s.buf.length - k ↔ k + i + n ≤ s.buf.length := by omega
  simp [State.memRead, slice, this]

/-- Evicting everything is Clear (R47). -/
theorem evict_all (s : State) : s.evict s.buf.length = s.clear := by simp [State.evict, State.clear]

theorem evict_evict (s : State) (m n : Nat) : (s.evict m).evict n = s.evict (m + n) := by simp [State.evict]

/-- The empty buffer has the form, under either width. -/
theorem wf_nil (v : Width) : Memory.wf v [] = true := rfl

/-- PUSH leaves BUF in its form, whatever BUF and the chunk were. -/
theorem pushChunk_wf (v : Width) (chunk : List Byte) (s : State) : Memory.wf v (pushChunk v chunk s).buf = true := by
  obtain ⟨events, rest, h⟩ := reassembles_exists v (s.buf ++ chunk)
  rw [pushChunk_eq h]
  exact h.rest_wf

/-- CLOSE and RESET leave BUF in its form. -/
theorem clear_wf (v : Width) (s : State) : Memory.wf v s.clear.buf = true := rfl

/-- BUF has its form at reset. -/
theorem reset_buf_wf (v : Width) : Memory.wf v State.reset.buf = true := rfl

end Sys2Proof.Machine
end

