-- ==== Sys2Proof/Laws/PerInstr.lean ====
section
/-! SUPPORT. A family of facts about every constructor of Instr: exactly the well-formed wire frames have an encoding
(spec/30_encoding.md R61, R62, R73). -/

namespace Sys2Proof.Laws.HasEncoding

/-- The FRAME rows of the opcode table. -/
def isWireFormat : Instr → Bool
  | .frameW1 _ => true
  | .frameW2 _ => true
  | .enc _ _ _ _ => false
  | .dec1 _ _ => false
  | .push _ => false
  | .close => false
  | .reset => false

/-- An instruction has an encoding exactly when it is a well-formed wire frame. -/
def Statement (i : Instr) : Prop := (encode i).isSome = (isWireFormat i && i.wellFormed)

theorem frameW1 (f : Frame) : Statement (.frameW1 f) := by
  cases h : f.fits .one <;> simp [Statement, encode, isWireFormat, Instr.wellFormed, h]

theorem frameW2 (f : Frame) : Statement (.frameW2 f) := by
  cases h : f.fits .two <;> simp [Statement, encode, isWireFormat, Instr.wellFormed, h]

theorem enc (mt : BitVec 3) (ss : BitVec 5) (op : Byte) (pl : List Byte) : Statement (.enc mt ss op pl) := rfl

theorem dec1 (buf : List Byte) (off : Nat) : Statement (.dec1 buf off) := rfl

theorem push (chunk : List Byte) : Statement (.push chunk) := rfl

theorem close : Statement .close := rfl

theorem reset : Statement .reset := rfl

end Sys2Proof.Laws.HasEncoding
end

