-- ==== Sys2Proof/Tests/Slice0.lean ====
section
/-! SUPPORT. Tests. Every expected value comes from spec/95_test_vectors.md (cited by its id) or is worked by hand from
the rule cited; then a witness for the hypotheses of each obligation that has some. -/

namespace Sys2Proof.Tests

open Sys2Proof.Machine

/-! ### Well-formedness: an ill-formed term for each check, and the boundary -/

/-- A payload of `n` zero bytes. -/
@[irreducible] def zeros (n : Nat) : List Byte := List.replicate n 0

theorem zeros_length (n : Nat) : (zeros n).length = n := by simp [zeros]

theorem test_frameW1_256_bytes_refused : (Instr.frameW1 ⟨0, 1, 0, zeros 256⟩).wellFormed = false := by
  simp [Instr.wellFormed, Frame.fits, zeros_length, lmax, Width.bytes]

theorem test_frameW1_255_bytes_accepted : (Instr.frameW1 ⟨0, 1, 0, zeros 255⟩).wellFormed = true := by
  simp [Instr.wellFormed, Frame.fits, zeros_length, lmax, Width.bytes]

theorem test_frameW2_65536_bytes_refused : (Instr.frameW2 ⟨0, 1, 0, zeros 65536⟩).wellFormed = false := by
  simp [Instr.wellFormed, Frame.fits, zeros_length, lmax, Width.bytes]

theorem test_frameW2_65535_bytes_accepted : (Instr.frameW2 ⟨0, 1, 0, zeros 65535⟩).wellFormed = true := by
  simp [Instr.wellFormed, Frame.fits, zeros_length, lmax, Width.bytes]

/-! ### Decoding: frames written out byte by byte from R61 and R62 -/

/-- Frame C of 95: the payload holds 0xFE unescaped; a byte after the frame is left over. -/
theorem test_decode_frameW1 : decode .one [0xFE, 0x03, 0x45, 0x80, 0xFE, 0x00, 0xFE, 0xC6, 0x55] =
    .ok (.frameW1 ⟨2, 5, 0x80, [0xFE, 0x00, 0xFE]⟩, [0x55]) := by rfl

/-- V-DEC-19, frame A2. -/
theorem test_decode_frameW2 : decode .two [0xFE, 0x03, 0x00, 0x61, 0x02, 0x01, 0x02, 0x03, 0x60] =
    .ok (.frameW2 ⟨3, 1, 0x02, [0x01, 0x02, 0x03]⟩, []) := by rfl

theorem test_decode_refuses_bad_marker : decode .one [0x00, 0x01] = .error .badStartMarker := by rfl

/-- S2: the source's misprinted frame. -/
theorem test_decode_refuses_bad_checksum : decode .one [0xFE, 0x00, 0x22, 0x06, 0x22] = .error .checksumMismatch := by rfl

/-- V-DEC-13: a W = 1 frame read with W = 2. -/
theorem test_decode_refuses_incomplete : decode .two [0xFE, 0x00, 0x22, 0x06, 0x24] = .error .incomplete := by rfl

/-- S1: the whole word, 40 bits, first byte in bits 7:0. -/
theorem test_tableWord_frameW1 : decodeTableWord 40 0x24062200FE = some (.frameW1 ⟨1, 2, 0x06, []⟩) := by decide

/-- V-ENC-2: no W = 1 frame has these 48 bits, so the table's second row is read. -/
theorem test_tableWord_frameW2 : decodeTableWord 48 0x2406220000FE = some (.frameW2 ⟨1, 2, 0x06, []⟩) := by decide

/-- The table's own word: 8 bits, every bit above them zero. -/
theorem test_tableWord_marker_alone : decodeTableWord 8 0xFE = some (.frameW1 ⟨0, 0, 0, []⟩) := by decide

theorem test_tableWord_runs_first_after_reset : step (State.reset.withFetchWord 8 0xFE) =
    .next { State.reset with w := 1, evt := [.evFrame ⟨0, 0, 0, []⟩], inSession := true } := by rfl

/-! ### One step of each operation -/

/-- A block with the width `w` and the buffer `buf`, in a session. -/
def blockWith (w : Nat) (buf : List Byte) : State := { State.reset with w := w, buf := buf, inSession := true }

/-- V-ENC-6. -/
theorem test_enc_two_byte_length : exec (.enc 3 1 0x02 [0x01, 0x02, 0x03]) (blockWith 2 []) =
    .next { blockWith 2 [] with encRsp := [.ok [0xFE, 0x03, 0x00, 0x61, 0x02, 0x01, 0x02, 0x03, 0x60]] } := by rfl

/-- V-ENC-12, with BUF untouched (P5). -/
theorem test_enc_payload_too_long : exec (.enc 0 1 0x00 (zeros 256)) (blockWith 1 [0xFE, 0x00]) =
    .next { blockWith 1 [0xFE, 0x00] with encRsp := [.encodeError] } := by
  simp [exec, execEnc, withWidth, State.width?, blockWith, Width.ofNat?, serialize, frameOperand, zeros_length, lmax,
    Width.bytes, State.take, State.respondEnc, State.reset]

/-- V-DEC-5. -/
theorem test_dec1_at_an_offset :
    exec (.dec1 [0x00, 0x01, 0xFE, 0x04, 0x89, 0x41, 0x10, 0x20, 0x30, 0x40, 0x8C] 2) (blockWith 1 []) =
    .next { blockWith 1 [] with decRsp := [.frame ⟨4, 9, 0x41, [0x10, 0x20, 0x30, 0x40]⟩ 9] } := by rfl

/-- V-DEC-14. -/
theorem test_dec1_wrong_width : exec (.dec1 [0xFE, 0x00, 0x00, 0x22, 0x06, 0x24] 0) (blockWith 1 []) =
    .next { blockWith 1 [] with decRsp := [.invalid .checksumMismatch [0xFE, 0x00, 0x00, 0x22, 0x06]] } := by rfl

/-- V-PUSH-6: only one byte is skipped, so the good frame is found. -/
theorem test_push_recovers : exec (.push [0xFE, 0x01, 0xFE, 0x00, 0x22, 0x06, 0x24]) (blockWith 1 []) =
    .next { blockWith 1 [] with evt := [.evInvalid .checksumMismatch [0xFE, 0x01, 0xFE, 0x00, 0x22, 0x06], .evDesync 1,
      .evFrame ⟨1, 2, 0x06, []⟩] } := by rfl

/-- The last chunk of P4: a buffered candidate fails, and the next one is left waiting. -/
theorem test_push_completes_a_false_candidate :
    exec (.push [0xFE]) (blockWith 1 [0xFE, 0x03, 0xFE, 0x00, 0x22, 0x06, 0x24]) =
    .next { blockWith 1 [0xFE] with evt := [.evInvalid .checksumMismatch [0xFE, 0x03, 0xFE, 0x00, 0x22, 0x06, 0x24, 0xFE],
      .evDesync 1, .evFrame ⟨1, 2, 0x06, []⟩] } := by rfl

/-- Frame C arrives at W = 1. -/
theorem test_frameW1_arrives : exec (.frameW1 ⟨2, 5, 0x80, [0xFE, 0x00, 0xFE]⟩) (blockWith 1 []) =
    .next { blockWith 1 [] with evt := [.evFrame ⟨2, 5, 0x80, [0xFE, 0x00, 0xFE]⟩] } := by rfl

/-- R200: frame A read at W = 2 waits for 8710 bytes. -/
theorem test_frameW1_at_width_two_waits : exec (.frameW1 ⟨1, 2, 0x06, []⟩) (blockWith 2 []) =
    .next (blockWith 2 [0xFE, 0x00, 0x22, 0x06, 0x24]) := by rfl

/-- Frame A2 arrives at W = 2. -/
theorem test_frameW2_arrives : exec (.frameW2 ⟨3, 1, 0x02, [0x01, 0x02, 0x03]⟩) (blockWith 2 []) =
    .next { blockWith 2 [] with evt := [.evFrame ⟨3, 1, 0x02, [0x01, 0x02, 0x03]⟩] } := by rfl

/-- V-PUSH-13: frame A2 read at W = 1. -/
theorem test_frameW2_at_width_one_fails : exec (.frameW2 ⟨3, 1, 0x02, [0x01, 0x02, 0x03]⟩) (blockWith 1 []) =
    .next { blockWith 1 [] with
      evt := [.evInvalid .checksumMismatch [0xFE, 0x03, 0x00, 0x61, 0x02, 0x01, 0x02, 0x03], .evDesync 8] } := by rfl

/-- V-CTL-1. -/
theorem test_close_is_silent : exec .close (blockWith 1 [0xFE, 0x04, 0x89, 0x41]) = .next (blockWith 1 []) := by rfl

/-- V-CTL-4, its first operation: W stays. -/
theorem test_reset_is_silent : exec .reset (blockWith 1 [0xFE, 0x00]) = .next (blockWith 1 []) := by rfl

/-! ### The ports -/

theorem test_absent_payload_is_empty : step { State.reset with w := 1, pending := [.encReq 1 2 0x06 none] } =
    .next { State.reset with w := 1, encRsp := [.ok [0xFE, 0x00, 0x22, 0x06, 0x24]], inSession := true } := by rfl

theorem test_unset_width_refused : step { State.reset with pending := [.rx [0xFE]] } = .refused .widthNotLegal := by rfl

theorem test_configuration_between_sessions :
    step { State.reset with w := 1, pending := [.cfg 2] } = .next { State.reset with w := 2 } := by rfl

/-- R84 on frame A (S1). -/
theorem test_serial_frame_A : serialFrame .one ⟨1, 2, 0x06, []⟩ = [0xFE, 0x00, 0x22, 0x06, 0x24] := by rfl

/-- P1: after `FE 04 89` the reassembler is in BODY and needs 6 bytes more. -/
theorem test_phase_of_P1 : phase .one [0xFE, 0x04, 0x89] = .body ∧ bytesNeeded .one [0xFE, 0x04, 0x89] = 6 := by decide

/-- V-PUSH-14 and 15: the event lists agree once adjacent desyncs are merged. -/
theorem test_mergeDesync : mergeDesync [.evDesync 1, .evDesync 1, .evFrame ⟨0, 0, 0, []⟩, .evDesync 4] =
    [.evDesync 2, .evFrame ⟨0, 0, 0, []⟩, .evDesync 4] := by decide

/-! ### Witnesses: the hypotheses of each obligation can be met together -/

/-- Frame A. -/
def frameA : Frame := ⟨1, 2, 0x06, []⟩

/-- The bytes of frame A at W = 1. -/
def bytesA : List Byte := [0xFE, 0x00, 0x22, 0x06, 0x24]

/-- A block at W = 1 holding the first three bytes of frame A. -/
def waiting : State := blockWith 1 [0xFE, 0x00, 0x22]

theorem witness_StepKeepsTheInvariant : { waiting with pending := [.rx [0x06, 0x24]] }.wf = true ∧
    step { waiting with pending := [.rx [0x06, 0x24]] } =
      .next { blockWith 1 [] with evt := [.evFrame frameA] } := ⟨by decide, rfl⟩

theorem witness_ConfigurationSetsWidth_outside_a_session :
    { State.reset with pending := [.cfg 1] }.pending = .cfg Width.one.bytes :: [] ∧ State.reset.inSession = false := by decide

theorem witness_ConfigurationSetsWidth_unchanged :
    { waiting with pending := [.cfg 1] }.pending = .cfg Width.one.bytes :: [] ∧ waiting.w = Width.one.bytes := by decide

theorem witness_ConfigurationSetsWidth_after_close :
    { waiting with inSession := true, pending := [.ctlClose, .cfg 2] }.pending = .ctlClose :: .cfg Width.two.bytes :: [] := by
  rfl

theorem witness_ConfigurationIsRefused_illegal :
    { State.reset with pending := [.cfg 3] }.pending = .cfg 3 :: [] ∧ (3 : Nat) ≠ 1 ∧ (3 : Nat) ≠ 2 := by decide

theorem witness_ConfigurationIsRefused_in_session :
    { waiting with pending := [.cfg 2] }.pending = .cfg Width.two.bytes :: [] ∧ waiting.inSession = true ∧
      waiting.w ≠ Width.two.bytes := by decide

/-- R197, decision D2: a PUSH at W = 1, a RESET, and a CFG of 2, which is refused. -/
theorem witness_ConfigurationIsRefused_after_reset :
    step { blockWith 1 [] with pending := [.rx [0xFE], .ctlReset, .cfg 2] } =
      .next { blockWith 1 [0xFE] with inSession := true, pending := [.ctlReset, .cfg 2] } ∧
    step { blockWith 1 [0xFE] with inSession := true, pending := [.ctlReset, .cfg 2] } =
      .next { blockWith 1 [] with inSession := true, pending := [.cfg 2] } ∧
    step { blockWith 1 [] with inSession := true, pending := [.cfg 2] } = .refused .widthChangeInSession := ⟨rfl, rfl, rfl⟩

theorem witness_NoOperationWritesWidth : exec .close waiting = .next (blockWith 1 []) := by rfl

theorem witness_IllegalWidthIsRefused : State.reset.w ≠ 1 ∧ State.reset.w ≠ 2 ∧
    (zeros 255).length ≤ 255 := by
  rw [zeros_length]; decide

theorem witness_LengthFieldIsLittleEndian : 255 ≤ 255 ∧ 65535 ≤ 65535 ∧
    (⟨0, 1, 0, zeros 255⟩ : Frame).pl.length ≤ lmax .one := by
  rw [zeros_length]; decide

theorem witness_DecodeOfEncode_frameW1 : (Instr.frameW1 frameA).wellFormed = true ∧
    encode (.frameW1 frameA) = some bytesA := by decide

theorem witness_DecodeOfEncode_frameW2 : (Instr.frameW2 frameA).wellFormed = true ∧
    encode (.frameW2 frameA) = some [0xFE, 0x00, 0x00, 0x22, 0x06, 0x24] := by decide

theorem witness_EncodeOfDecode : decode .one (bytesA ++ [0x55]) = .ok (.frameW1 frameA, [0x55]) := by rfl

theorem witness_EncReturnsTheFrame_largest : (blockWith 1 []).w = Width.one.bytes ∧
    (zeros 255).length ≤ 2 ^ (8 * Width.one.bytes) - 1 := by
  rw [zeros_length]; decide

theorem witness_EncReturnsEncodeError_smallest : (blockWith 1 []).w = Width.one.bytes ∧
    2 ^ (8 * Width.one.bytes) - 1 < (zeros 256).length := by
  rw [zeros_length]; decide

theorem witness_EncReturns_at_width_two : (blockWith 2 []).w = Width.two.bytes ∧
    (zeros 65535).length ≤ 2 ^ (8 * Width.two.bytes) - 1 ∧ 2 ^ (8 * Width.two.bytes) - 1 < (zeros 65536).length := by
  rw [zeros_length, zeros_length]; decide

/-- For EncOutputLayout, SerialEncoderAgrees and EncCommutesWithTheInboundSide. -/
theorem witness_EncOutputLayout : (blockWith 1 []).w = Width.one.bytes ∧ frameA.pl.length ≤ lmax .one := by decide

theorem witness_Dec1ReadsBackWhatEncReturned : exec (.enc 1 2 0x06 []) waiting =
    .next { waiting with encRsp := [.ok bytesA] } ∧
    { waiting with encRsp := [.ok bytesA] }.encRsp = waiting.encRsp ++ [.ok bytesA] := ⟨rfl, rfl⟩

theorem witness_CodecResults : waiting.w = (blockWith 1 []).w ∧ (waiting.w = 1 ∨ waiting.w = 2) := by decide

theorem witness_Dec1WithNoByte : waiting.w = Width.one.bytes ∧ [(0xFE : Byte)].length ≤ 1 := by decide

theorem witness_Dec1BadStartMarker : waiting.w = Width.one.bytes ∧ [(0x00 : Byte)][0]? = some 0x00 ∧
    (0x00 : Byte) ≠ 0xFE := by decide

theorem witness_Dec1WithoutLength : (blockWith 2 []).w = Width.two.bytes ∧ [(0xFE : Byte), 0x03][0]? = some 0xFE ∧
    [(0xFE : Byte), 0x03].length - 0 < 1 + Width.two.bytes := by decide

theorem witness_Dec1BeforeTheWholeFrame : waiting.w = Width.one.bytes ∧ [(0x00 : Byte)].length = Width.one.bytes ∧
    0 = (if Width.one.bytes = 1 then ([(0x00 : Byte)].getD 0 0).toNat else 0) ∧
    1 + Width.one.bytes + [(0x22 : Byte), 0x06].length < 4 + Width.one.bytes + 0 := by decide

/-- Both verdicts of Dec1JudgesACompleteCandidate: 24 is the checksum, 25 is not. -/
theorem witness_Dec1JudgesACompleteCandidate : waiting.w = Width.one.bytes ∧ [(0x00 : Byte)].length = Width.one.bytes ∧
    ([] : List Byte).length = (if Width.one.bytes = 1 then ([(0x00 : Byte)].getD 0 0).toNat else 0) ∧
    [(0x00 : Byte), 0x22, 0x06].foldl (· ^^^ ·) 0 = 0x24 ∧ [(0x00 : Byte), 0x22, 0x06].foldl (· ^^^ ·) 0 ≠ 0x25 := by decide

/-- Both clauses of Dec1TagsAnInvalidWithItsBytes. -/
theorem witness_Dec1Tags_mismatch : exec (.dec1 [0x00, 0xFE, 0x00, 0x22, 0x06, 0x25, 0x55] 1) waiting =
    .next { waiting with decRsp := waiting.decRsp ++ [.invalid .checksumMismatch [0xFE, 0x00, 0x22, 0x06, 0x25]] } := by rfl

theorem witness_Dec1Tags_marker : exec (.dec1 [0x00, 0xFE] 0) waiting =
    .next { waiting with decRsp := waiting.decRsp ++ [.invalid .badStartMarker [0x00]] } := by rfl

theorem witness_Dec1VerdictIsStable : exec (.dec1 bytesA 0) waiting =
    .next { waiting with decRsp := waiting.decRsp ++ [.frame frameA 5] } ∧
    DecResult.frame frameA 5 ≠ .incomplete := ⟨rfl, by decide⟩

/-- The first clause of Dec1VerdictIsStable: frame A's five bytes at two offsets, other bytes around them. -/
theorem witness_Dec1VerdictIsStable_same_bytes :
    5 = 4 + Width.one.bytes + readLength .one ((bytesA.drop (0 + 1)).take Width.one.bytes) ∧ 0 + 5 ≤ bytesA.length ∧
    (([0x55] ++ bytesA ++ [0x24]).drop 1).take 5 = (bytesA.drop 0).take 5 := by decide

/-- Its second clause: the byte 55 at two offsets. -/
theorem witness_Dec1VerdictIsStable_marker : [(0x55 : Byte), 0xFE][0]? = some 0x55 ∧ (0x55 : Byte) ≠ 0xFE ∧
    [(0xFE : Byte), 0x55][1]? = some 0x55 := by decide

theorem witness_Dec1OfAStrictPrefix : waiting.w = Width.one.bytes ∧ frameA.pl.length ≤ lmax .one ∧
    4 < 4 + Width.one.bytes + frameA.pl.length := by decide

theorem witness_Dec1RejectsAnyOneByteError_header : (frameA.wire .one)[2]? = some 0x22 ∧ (0x23 : Byte) ≠ 0x22 ∧
    1 + Width.one.bytes ≤ 2 := by decide

theorem witness_Dec1RejectsAnyOneByteError_checksum : (frameA.wire .one)[4]? = some 0x24 ∧ (0x25 : Byte) ≠ 0x24 ∧
    1 + Width.one.bytes ≤ 4 := by decide

theorem witness_Dec1RejectsAnyOneByteError_marker : (frameA.wire .one)[0]? = some 0xFE ∧ (0x7E : Byte) ≠ 0xFE := by decide

theorem witness_Dec1AcceptsExactlyWhatCancels : waiting.w = Width.one.bytes ∧ [(0x00 : Byte)].length = Width.one.bytes ∧
    [(0x22 : Byte), 0x06, 0x24].length = 3 + readLength .one [0x00] := by decide

theorem witness_PushWithoutMarker : (blockWith 1 []).w = Width.one.bytes ∧
    (0xFE : Byte) ∉ (blockWith 1 []).buf ++ [0x00, 0x11, 0x22] := by decide

theorem witness_PushWithoutMarker_nothing : (blockWith 1 []).w = Width.one.bytes ∧
    (0xFE : Byte) ∉ (blockWith 1 []).buf ++ [] := by decide

theorem witness_PushKeepsAnUndecidedCandidate : (blockWith 1 []).w = Width.one.bytes ∧
    (blockWith 1 []).buf ++ [0x00, 0x13, 0xFE, 0x00] = [0x00, 0x13] ++ 0xFE :: [0x00] ∧ (0xFE : Byte) ∉ [(0x00 : Byte), 0x13] ∧
    exec (.dec1 (0xFE :: [0x00]) 0) (blockWith 1 []) = .next { blockWith 1 [] with decRsp := [] ++ [.incomplete] } :=
  ⟨rfl, rfl, by decide, rfl⟩

theorem witness_PushDropsOneByteAfterInvalid : (blockWith 1 []).w = Width.one.bytes ∧
    (blockWith 1 []).buf ++ [0x55, 0xFE, 0x00, 0x22, 0x06, 0x25] = [0x55] ++ 0xFE :: [0x00, 0x22, 0x06, 0x25] ∧
    (0xFE : Byte) ∉ [(0x55 : Byte)] ∧
    exec (.dec1 (0xFE :: [0x00, 0x22, 0x06, 0x25]) 0) (blockWith 1 []) = .next { blockWith 1 [] with
      decRsp := [] ++ [.invalid .checksumMismatch [0xFE, 0x00, 0x22, 0x06, 0x25]] } := ⟨rfl, rfl, by decide, rfl⟩

theorem witness_PushEmitsAndEvictsAFrame : waiting.w = Width.one.bytes ∧
    waiting.buf ++ [0x06, 0x24, 0x55] = [] ++ 0xFE :: [0x00, 0x22, 0x06, 0x24, 0x55] ∧ (0xFE : Byte) ∉ ([] : List Byte) ∧
    exec (.dec1 (0xFE :: [0x00, 0x22, 0x06, 0x24, 0x55]) 0) waiting =
      .next { waiting with decRsp := waiting.decRsp ++ [.frame frameA 5] } := ⟨rfl, rfl, by decide, rfl⟩

theorem witness_PushLoopTerminates_fuel : waiting.buf.length < 4 := by decide

theorem witness_PushLoopTerminates : iteration .one (blockWith 1 bytesA) =
    .continue { blockWith 1 [] with evt := [.evFrame frameA] } := by rfl

/-- For PushEventsHaveTheirForms and BufferAfterPushIsEmptyOrUndecided. -/
theorem witness_PushEventsHaveTheirForms : exec (.push [0x06, 0x24]) waiting =
    .next { blockWith 1 [] with evt := [.evFrame frameA] } := by rfl

/-- For PushedBytesAreAllAccountedFor and PushCompletesAndWritesOnlyBufferAndEvents, whose one hypothesis is on W. -/
theorem witness_PushedBytes : waiting.w = Width.one.bytes ∧ (blockWith 2 []).w = Width.two.bytes := by decide

theorem witness_ChunkBoundaries : waiting.w = Width.one.bytes ∧ waiting.bufWf = true ∧
    [[(0x06 : Byte)], [0x24]].flatten = [[(0x06 : Byte), 0x24], []].flatten := by decide

theorem witness_PackedFrames : (blockWith 1 []).w = Width.one.bytes ∧ (blockWith 1 []).buf = [] ∧
    (∀ f ∈ [frameA, frameA], f.pl.length ≤ lmax .one) ∧
    [bytesA ++ [0xFE], [0x00, 0x22, 0x06, 0x24]].flatten = ([frameA, frameA].map (Frame.wire .one)).flatten := by decide

theorem witness_NoiseThenFrame : (blockWith 1 []).w = Width.one.bytes ∧ (blockWith 1 []).buf = [] ∧
    [(0x01 : Byte), 0x02, 0x03] ≠ [] ∧ (0xFE : Byte) ∉ [(0x01 : Byte), 0x02, 0x03] ∧ frameA.pl.length ≤ lmax .one := by decide

theorem witness_EmptyChunk_empty : (blockWith 1 []).w = Width.one.bytes ∧ (blockWith 1 []).buf = [] := by decide

theorem witness_EmptyChunk_waiting : waiting.w = Width.one.bytes ∧ waiting.buf[0]? = some 0xFE ∧
    exec (.dec1 waiting.buf 0) waiting = .next { waiting with decRsp := waiting.decRsp ++ [.incomplete] } :=
  ⟨rfl, rfl, rfl⟩

theorem witness_BufferPeak : waiting.wf = true ∧ waiting.w = Width.one.bytes ∧ [(0x06 : Byte)].length ≤ 1 := by decide

theorem witness_BufferPeak_stop : iteration .one waiting = .stop waiting := by rfl

theorem witness_Phase_one_byte_short : waiting.w = Width.one.bytes ∧ waiting.bufWf = true ∧
    [(0x06 : Byte)].length < bytesNeeded .one waiting.buf := by decide

theorem witness_Phase_exactly_enough : waiting.w = Width.one.bytes ∧ waiting.bufWf = true ∧
    phase .one waiting.buf = .body ∧ bytesNeeded .one waiting.buf ≤ [(0x06 : Byte), 0x24].length := by decide

theorem witness_ArrivingFrameIsDelivered : (blockWith 1 []).buf = [] ∧ (blockWith 1 []).w = 1 ∧
    (blockWith 2 []).buf = [] ∧ (blockWith 2 []).w = 2 ∧ frameA.pl.length ≤ 255 ∧ frameA.pl.length ≤ 65535 := by decide

theorem witness_ArrivingFrame_too_long : 255 < (zeros 256).length ∧
    65535 < (zeros 65536).length := by
  rw [zeros_length, zeros_length]; decide

theorem witness_CloseIsIdempotent : (blockWith 1 []).buf = [] ∧
    exec .close waiting = .next (blockWith 1 []) := ⟨rfl, rfl⟩

theorem witness_NothingPushedBeforeClose : waiting.w = Width.one.bytes ∧
    exec .close waiting = .next (blockWith 1 []) ∧ (blockWith 1 []).w = waiting.w ∧
    (blockWith 1 []).buf = [] := ⟨rfl, rfl, rfl, rfl⟩

theorem witness_StepRunsTheSelectedInstruction_refused :
    select State.reset.width? (.rx [0xFE]) = .operation (.push [0xFE]) ∧
      exec (.push [0xFE]) { State.reset with pending := [] } = .refused .widthNotLegal := ⟨rfl, rfl⟩

theorem witness_StepRunsTheSelectedInstruction : { waiting with pending := [.ctlClose] }.pending = .ctlClose :: [] ∧
    select waiting.width? .ctlClose = .operation .close ∧
    exec .close { waiting with pending := [] } = .next (blockWith 1 []) ∧ State.reset.pending = [] := ⟨rfl, rfl, rfl, rfl⟩

theorem witness_StepRunsTheDecodedFrame : { waiting with pending := [.rx bytesA] }.w = Width.one.bytes ∧
    { waiting with pending := [.rx bytesA] }.pending = .rx bytesA :: [] ∧
    decode .one bytesA = .ok (.frameW1 frameA, []) := ⟨rfl, rfl, rfl⟩

theorem witness_StepIsAdmitted : { waiting with pending := [.rx bytesA] }.admitsNext = true ∧
    { State.reset with pending := [.rx bytesA] }.admitsNext = false := by decide

/-- A CFG admitted and two refused, a CLOSE at an illegal W, and nothing pending. -/
theorem witness_StepIsAdmitted_configuration : { State.reset with pending := [.cfg 2] }.admitsNext = true ∧
    { State.reset with pending := [.cfg 3] }.admitsNext = false ∧
    { waiting with inSession := true, pending := [.cfg 2] }.admitsNext = false ∧
    { State.reset with pending := [.ctlClose] }.admitsNext = true ∧ State.reset.admitsNext = true := by decide

theorem witness_OnlyPushEmitsEvents : exec (.enc 1 2 0x06 []) waiting = .next { waiting with encRsp := [.ok bytesA] } ∧
    exec (.dec1 [] 0) waiting = .next { waiting with decRsp := [.incomplete] } ∧
    exec .reset waiting = .next (blockWith 1 []) := ⟨rfl, rfl, rfl⟩

theorem witness_OutputsOnlyGrow : step State.reset = .next State.reset := by rfl

theorem witness_TableWord : decodeTableWord 8 0xFE = some (.frameW1 ⟨0, 0, 0, []⟩) ∧
    decodeTableWord 48 0xFE = some (.frameW2 ⟨0, 0, 0, []⟩) := by decide

/-- An open adapter whose block waits for the rest of frame A. -/
def adapterWaiting : Adapter := { isOpen := true, block := waiting, written := [], notes := [] }

theorem witness_Adapter : adapterWaiting.isOpen = true ∧ { adapterWaiting with isOpen := false }.isOpen = false ∧
    adapterWaiting.block.w = Width.one.bytes ∧ ((none : Option (List Byte)).getD []).length ≤ lmax .one ∧
    lmax .one < ((some (zeros 256)).getD []).length := by
  rw [Option.getD_some, zeros_length]; decide

theorem test_adapter_notifies : adapterCall (.chunkRead [0x06, 0x24, 0x55]) adapterWaiting =
    .next ({ adapterWaiting with block := { blockWith 1 [] with inSession := true, evt := [.evFrame frameA, .evDesync 1] },
                                 notes := [.onFrame frameA, .onStreamDesync 1] }, .done) := by rfl

end Sys2Proof.Tests
end

section
/-! Proofs of the statements about the block's state (spec/10_state.md). -/

namespace Sys2Proof

/-- The two legal values of the register W are the byte counts of the two widths (00_scope.md R8). -/
theorem Width.exists_bytes_eq {n : Nat} (legal : n = 1 ∨ n = 2) : ∃ v : Width, n = v.bytes := by
  obtain rfl | rfl := legal
  · exact ⟨.one, rfl⟩
  · exact ⟨.two, rfl⟩

namespace Machine

/-- Settles O19. Both states hold the same width `v`; the common results are `serialize` and `judge` at `v`, which take
no state, and `exec_enc` and `exec_dec1` give the frame. -/
theorem codecResultsDependOnWidthAndOperandsOnly : Obligations.CodecResultsDependOnWidthAndOperandsOnly := by
  intro s t same legal
  obtain ⟨v, hs⟩ := Width.exists_bytes_eq legal
  have ht : t.w = v.bytes := same.symm.trans hs
  constructor
  · intro mt ss op pl
    exact ⟨serialize v ⟨mt, ss, op, pl⟩, exec_enc hs mt ss op pl, exec_enc ht mt ss op pl⟩
  · intro buf off
    exact ⟨judge v buf off, exec_dec1 hs buf off, exec_dec1 ht buf off⟩

end Machine

end Sys2Proof
end

section
/-! Proofs of the statements about the wire's fields (spec/30_encoding.md). -/

namespace Sys2Proof

/-! ### The header byte as a number -/

/-- The shift divides by 2^5, and the quotient fits in the three bits kept. -/
theorem headerType_toNat (hdr : Byte) : (headerType hdr).toNat = hdr.toNat / 32 := by
  have quotient_lt : hdr.toNat / 32 < 2 ^ 3 := by omega
  simpa [headerType, Nat.shiftRight_eq_div_pow] using quotient_lt

/-- The mask 0x1F is 2^5 - 1, so masking takes the remainder by 32. -/
theorem headerSubsystem_toNat (hdr : Byte) : (headerSubsystem hdr).toNat = hdr.toNat % 32 := by
  have mask : hdr.toNat &&& 31 = hdr.toNat % 32 := Nat.and_two_pow_sub_one_eq_mod hdr.toNat 5
  calc (headerSubsystem hdr).toNat
    _ = (hdr.toNat &&& 31) % 32 := by rw [headerSubsystem, BitVec.toNat_setWidth, BitVec.toNat_and]; rfl
    _ = hdr.toNat % 32 := by rw [mask, Nat.mod_mod]

/-- The packed byte is 32 times its quotient plus its remainder by 32, and those are the fields it was packed from. -/
theorem packHeader_toNat (mt : BitVec 3) (ss : BitVec 5) :
    (packHeader mt ss).toNat = 32 * mt.toNat + ss.toNat := by
  have quotient : (packHeader mt ss).toNat / 32 = mt.toNat := by
    rw [← headerType_toNat, headerType_packHeader]
  have remainder : (packHeader mt ss).toNat % 32 = ss.toNat := by
    rw [← headerSubsystem_toNat, headerSubsystem_packHeader]
  omega

/-- Settles O8: both inverses are laws of the codec, and the three numbers are the lemmas above. -/
theorem headerBytePacksAndUnpacks : Obligations.HeaderBytePacksAndUnpacks := by
  constructor
  · intro mt ss
    exact ⟨packHeader_toNat mt ss, headerType_packHeader mt ss, headerSubsystem_packHeader mt ss⟩
  · intro hdr
    exact ⟨packHeader_header hdr, headerType_toNat hdr, headerSubsystem_toNat hdr⟩

/-! ### The length field -/

@[simp] theorem readLength_one (b : Byte) : readLength .one [b] = b.toNat := rfl

@[simp] theorem readLength_two (b0 b1 : Byte) : readLength .two [b0, b1] = b0.toNat + 256 * b1.toNat := rfl

/-- The byte of a number is the byte of its remainder by 256, so the first byte of two is the low one. -/
theorem lengthField_two (n : Nat) :
    lengthField .two n = [BitVec.ofNat 8 (n % 256), BitVec.ofNat 8 (n / 256)] := by
  have low : BitVec.ofNat 8 (n % 256) = BitVec.ofNat 8 n := BitVec.eq_of_toNat_eq (by simp)
  rw [low]; rfl

/-- The length field stands between the start marker and the header byte, and its size is the width. -/
theorem Frame.lengthField_of_wire (v : Width) (f : Frame) :
    ((f.wire v).drop 1).take v.bytes = lengthField v f.pl.length := by
  rw [f.wire_eq v, List.drop_one, List.tail_cons]
  exact List.take_left' (lengthField_length v f.pl.length)

/-- Settles O9, with the law `readLength_lengthField` for each length read back and `Frame.lengthField_of_wire` for the
field's place on the wire. -/
theorem lengthFieldIsLittleEndian : Obligations.LengthFieldIsLittleEndian := by
  refine ⟨?_, ?_, readLength_one, readLength_two, ?_⟩
  · intro n fits
    exact ⟨rfl, readLength_lengthField .one n fits⟩
  · intro n fits
    exact ⟨lengthField_two n, readLength_lengthField .two n fits⟩
  · intro v f fits
    rw [f.lengthField_of_wire v]
    exact ⟨rfl, readLength_lengthField v f.pl.length fits⟩

end Sys2Proof
end

section
/-! Proofs of the statements about the frame encoder (spec/40_frame_encoder.md). -/

namespace Sys2Proof

/-! ### The encoder's result -/

theorem serialize_of_le {v : Width} {f : Frame} (fits : f.pl.length ≤ lmax v) : serialize v f = .ok (f.wire v) :=
  if_neg (Nat.not_lt.mpr fits)

theorem serialize_of_lt {v : Width} {f : Frame} (tooLong : lmax v < f.pl.length) : serialize v f = .encodeError :=
  if_pos tooLong

/-- All or nothing (R86): the only bytes the encoder ever answers are a whole frame's. -/
theorem serialize_eq_ok_iff {v : Width} {f : Frame} {bytes : List Byte} :
    serialize v f = .ok bytes ↔ f.pl.length ≤ lmax v ∧ bytes = f.wire v := by
  by_cases fits : f.pl.length ≤ lmax v
  · simp [serialize_of_le fits, fits, eq_comm]
  · simp [serialize_of_lt (Nat.lt_of_not_le fits), fits]

/-- The length field of either width in one equation, as R80 writes it: one byte, or two with the low one first. -/
theorem lengthField_eq_ite (v : Width) (n : Nat) :
    lengthField v n = if v.bytes = 1 then [BitVec.ofNat 8 n]
      else [BitVec.ofNat 8 (n % 256), BitVec.ofNat 8 (n / 256)] := by
  cases v with
  | one => rfl
  | two => exact lengthField_two n

/-! ### Where the fields lie on the wire -/

/-- The bytes between the start marker and the checksum are the body (R65). -/
theorem Frame.body_of_wire (v : Width) (f : Frame) :
    ((f.wire v).drop 1).take (2 + v.bytes + f.pl.length) = f.body v := by
  rw [Frame.wire, List.append_assoc, List.singleton_append, List.drop_one, List.tail_cons]
  exact List.take_left' (f.body_length v)

/-- Everything behind the length field. -/
theorem Frame.wire_drop_lengthField (v : Width) (f : Frame) :
    (f.wire v).drop (1 + v.bytes) = packHeader f.mt f.ss :: f.op :: (f.pl ++ [f.fcs v]) := by
  rw [f.wire_eq v, Nat.add_comm, List.drop_succ_cons]
  exact List.drop_left' (lengthField_length v f.pl.length)

/-- Everything behind the opcode: two bytes further on. -/
theorem Frame.wire_drop_opcode (v : Width) (f : Frame) : (f.wire v).drop (3 + v.bytes) = f.pl ++ [f.fcs v] := by
  rw [show 3 + v.bytes = (1 + v.bytes) + 2 by omega, ← List.drop_drop, f.wire_drop_lengthField v]
  rfl

theorem Frame.wire_header (v : Width) (f : Frame) : (f.wire v)[1 + v.bytes]? = some (packHeader f.mt f.ss) := by
  rw [← List.head?_drop, f.wire_drop_lengthField v, List.head?_cons]

theorem Frame.wire_opcode (v : Width) (f : Frame) : (f.wire v)[2 + v.bytes]? = some f.op := by
  rw [show 2 + v.bytes = (1 + v.bytes) + 1 by omega, ← List.getElem?_drop, f.wire_drop_lengthField v]
  rfl

theorem Frame.wire_payload (v : Width) (f : Frame) : ((f.wire v).drop (3 + v.bytes)).take f.pl.length = f.pl := by
  rw [f.wire_drop_opcode v, List.take_left]

theorem Frame.wire_checksum (v : Width) (f : Frame) :
    (f.wire v)[3 + v.bytes + f.pl.length]? = some (f.fcs v) := by
  rw [← List.getElem?_drop, f.wire_drop_opcode v, List.getElem?_concat_length]

theorem Frame.wire_getLast? (v : Width) (f : Frame) : (f.wire v).getLast? = some (f.fcs v) :=
  List.getLast?_concat

/-- `judge_wire` at any offset: what stands before the offset is not looked at (41_frame_decoder.md R100). -/
theorem judge_wire_at (v : Width) (f : Frame) (before after : List Byte) (fits : f.fits v = true) :
    judge v (before ++ f.wire v ++ after) before.length = .frame f (total v f.pl.length) := by
  rw [judge_drop, List.append_assoc, List.drop_left]
  exact judge_wire v f after fits

namespace Machine

/-! ### The operation ENC -/

theorem exec_enc_of_le {s : State} {v : Width} (hw : s.w = v.bytes) (mt : BitVec 3) (ss : BitVec 5) (op : Byte)
    {pl : List Byte} (fits : pl.length ≤ lmax v) : exec (.enc mt ss op pl) s =
      .next { s with encRsp := s.encRsp ++ [.ok (Frame.wire v ⟨mt, ss, op, pl⟩)] } := by
  rw [exec_enc hw, serialize_of_le fits]

theorem exec_enc_of_lt {s : State} {v : Width} (hw : s.w = v.bytes) (mt : BitVec 3) (ss : BitVec 5) (op : Byte)
    {pl : List Byte} (tooLong : lmax v < pl.length) : exec (.enc mt ss op pl) s =
      .next { s with encRsp := s.encRsp ++ [.encodeError] } := by
  rw [exec_enc hw, serialize_of_lt tooLong]

/-- An ENC that answers had a legal width, and its answer is the encoder's result at that width. -/
theorem exec_enc_next {s a : State} {mt : BitVec 3} {ss : BitVec 5} {op : Byte} {pl : List Byte}
    (run : exec (.enc mt ss op pl) s = .next a) :
    ∃ v : Width, s.w = v.bytes ∧ a = { s with encRsp := s.encRsp ++ [serialize v ⟨mt, ss, op, pl⟩] } := by
  obtain ⟨v, hw, _⟩ := withWidth_next run
  rw [exec_enc hw] at run
  injection run with run
  exact ⟨v, hw, run.symm⟩

/-- What an ENC that answered Ok says: a legal width, a payload it can count, and the frame's own bytes; W is kept. -/
theorem exec_enc_ok {s a : State} {mt : BitVec 3} {ss : BitVec 5} {op : Byte} {pl bytes : List Byte}
    (run : exec (.enc mt ss op pl) s = .next a) (answer : a.encRsp = s.encRsp ++ [.ok bytes]) :
    ∃ v : Width, s.w = v.bytes ∧ a.w = v.bytes ∧ pl.length ≤ lmax v ∧ bytes = Frame.wire v ⟨mt, ss, op, pl⟩ := by
  obtain ⟨v, hw, rfl⟩ := exec_enc_next run
  have result : serialize v ⟨mt, ss, op, pl⟩ = .ok bytes := List.singleton_inj.mp (List.append_cancel_left answer)
  obtain ⟨fits, rfl⟩ := serialize_eq_ok_iff.mp result
  exact ⟨v, hw, hw, fits, rfl⟩

/-- Settles O14. The body written out is `Frame.body` once `lengthField_eq_ite` gives the length field, and the bound
2^(8W) - 1 is `lmax`; the two cases are the two answers of ENC. -/
theorem encReturnsTheFrameOrEncodeError : Obligations.EncReturnsTheFrameOrEncodeError := by
  intro s v mt ss op pl hw
  constructor
  · intro fits body hbody
    have body_eq : body = Frame.body v ⟨mt, ss, op, pl⟩ := by rw [hbody, ← lengthField_eq_ite]; rfl
    rw [body_eq]
    exact exec_enc_of_le hw mt ss op fits
  · intro tooLong
    exact exec_enc_of_lt hw mt ss op tooLong

/-- Settles O15. ENC answers the frame's wire bytes, whose fields the lemmas `Frame.wire_…` place one by one; the
header byte's number is `packHeader_toNat`. -/
theorem encOutputLayout : Obligations.EncOutputLayout := by
  intro s v mt ss op pl hw fits
  refine ⟨Frame.wire v ⟨mt, ss, op, pl⟩, exec_enc_of_le hw mt ss op fits, Frame.wire_length v _, rfl,
    ?length, ?header, Frame.wire_opcode v _, ?payload, ?checksum⟩
  case length => rw [Frame.lengthField_of_wire, readLength_lengthField v pl.length fits]
  case header => rw [Frame.wire_header, Option.map_some, packHeader_toNat]
  case payload => exact Frame.wire_payload v ⟨mt, ss, op, pl⟩
  case checksum =>
    rw [Frame.body_of_wire v ⟨mt, ss, op, pl⟩]
    exact Frame.wire_checksum v _

/-- Settles O17. The answer Ok fixes the width, the fit and the bytes (`exec_enc_ok`); DEC1 runs at the same width, for
ENC keeps W, and `judge_wire_at` reads those bytes back between any others. -/
theorem dec1ReadsBackWhatEncReturned : Obligations.Dec1ReadsBackWhatEncReturned := by
  intro s a mt ss op pl bytes before after run answer
  obtain ⟨v, hs, ha, fits, rfl⟩ := exec_enc_ok run answer
  have fits_eq_true : Frame.fits v ⟨mt, ss, op, pl⟩ = true := decide_eq_true fits
  constructor
  · rw [exec_dec1 ha, judge_wire_at v _ before after fits_eq_true, Frame.wire_length]
  · intro u hu
    obtain rfl : v = u := Width.bytes_injective (hs.symm.trans hu)
    exact Frame.wire_getLast? v _

end Machine

end Sys2Proof
end

section
/-! Proofs of the statements about the frame decoder (spec/41_frame_decoder.md). -/

namespace Sys2Proof

/-! ### The fields of a candidate -/

/-- The length of either width in one equation, as R64 writes it: one byte, or two with the low one first. -/
theorem readLength_eq_ite (v : Width) (field : List Byte) :
    readLength v field = if v.bytes = 1 then (field.getD 0 0).toNat
      else (field.getD 0 0).toNat + 256 * (field.getD 1 0).toNat := by
  cases v with
  | one => rfl
  | two => rfl

/-- The frame read from a candidate's fields has the candidate's own body: both the length field and the header byte
are read without loss. -/
theorem Frame.body_of_read_fields {v : Width} {field pl : List Byte} (hdr op : Byte) (size : field.length = v.bytes)
    (announces : readLength v field = pl.length) :
    Frame.body v ⟨headerType hdr, headerSubsystem hdr, op, pl⟩ = field ++ hdr :: op :: pl := by
  rw [Frame.body_eq, packHeader_header, ← announces, (lengthField_readLength v field size).1]

/-! ### The judgement at an offset -/

theorem drop_eq_cons_of_getElem? {buf : List Byte} {off : Nat} {b : Byte} (found : buf[off]? = some b) :
    buf.drop off = b :: buf.drop (off + 1) := by
  obtain ⟨inside, rfl⟩ := List.getElem?_eq_some_iff.mp found
  exact List.drop_eq_getElem_cons inside

/-- `judge_drop` where the candidate is what follows a known front. -/
theorem judge_at_length (v : Width) (before cand : List Byte) :
    judge v (before ++ cand) before.length = judge v cand 0 := by
  rw [judge_drop, List.drop_left]

/-- A bad start marker needs one byte only (R93). -/
theorem judge_bad_marker_at (v : Width) {buf : List Byte} {off : Nat} {b : Byte} (found : buf[off]? = some b)
    (bad : b ≠ sof) : judge v buf off = .invalid .badStartMarker [b] := by
  rw [judge_drop, drop_eq_cons_of_getElem? found, judge_not_marker v b _ bad]

/-- Behind a marker, fewer than 1 + W bytes hold no whole length field (R94). -/
theorem judge_no_length_at (v : Width) {buf : List Byte} {off : Nat} (found : buf[off]? = some sof)
    (short : buf.length - off < 1 + v.bytes) : judge v buf off = .incomplete := by
  have available : (buf.drop (off + 1)).length < v.bytes := by
    rw [List.length_drop]
    have := v.bytes_pos
    omega
  rw [judge_drop, drop_eq_cons_of_getElem? found, judge_no_length v _ available]

/-! ### When the judgement is decided, and on what -/

/-- Once the bytes that the length field asks for are there, the candidate is decided (R97 to R99; R93 where it has no
marker): each shape that is undecided has fewer. -/
theorem judge_decided {v : Width} {cand : List Byte}
    (whole : total v (readLength v ((cand.drop 1).take v.bytes)) ≤ cand.length) : judge v cand 0 ≠ .incomplete := by
  rw [total] at whole
  rcases candidate_shape v cand with rfl | ⟨b, rest, rfl, bad⟩ | ⟨rest, rfl, short⟩ | ⟨field, rest, rfl, size, short⟩ |
    ⟨field, hdr, op, pl, fcs, rest, rfl, size, announces⟩
  · rw [List.length_nil] at whole
    omega
  · simp [judge_not_marker v b rest bad]
  · rw [List.length_cons] at whole
    omega
  · rw [List.drop_one, List.tail_cons, List.take_left' size, List.length_cons, List.length_append] at whole
    omega
  · rw [judge_complete v field hdr op pl fcs rest size announces]
    split <;> simp

/-- The first T bytes of a candidate, T the size its length field asks for, hold that whole length field. -/
theorem lengthField_of_take_total (v : Width) (cand : List Byte) (len : Nat) :
    ((cand.take (total v len)).drop 1).take v.bytes = (cand.drop 1).take v.bytes := by
  rw [List.drop_take, List.take_take, Nat.min_eq_left (by rw [total]; omega)]

/-- The first T bytes of a candidate are decided by themselves. -/
theorem judge_take_total_decided {v : Width} {cand : List Byte} {t : Nat}
    (size : t = total v (readLength v ((cand.drop 1).take v.bytes))) (whole : t ≤ cand.length) :
    judge v (cand.take t) 0 ≠ .incomplete := by
  apply judge_decided
  rw [List.length_take, Nat.min_eq_left whole, size, lengthField_of_take_total]

/-- A judgement that some first bytes of the candidate decide is theirs (R100, R105). -/
theorem judge_eq_of_take {v : Width} {buf : List Byte} {off t : Nat}
    (decided : judge v ((buf.drop off).take t) 0 ≠ .incomplete) :
    judge v buf off = judge v ((buf.drop off).take t) 0 := by
  calc judge v buf off
    _ = judge v ((buf.drop off).take t ++ (buf.drop off).drop t) 0 := by rw [judge_drop, List.take_append_drop]
    _ = judge v ((buf.drop off).take t) 0 := judge_append decided _

/-- A decided candidate has a byte at its offset (R92). -/
theorem off_lt_of_decided {v : Width} {buf : List Byte} {off : Nat} (decided : judge v buf off ≠ .incomplete) :
    off < buf.length := by
  by_contra outside
  rw [judge_drop, List.drop_of_length_le (Nat.le_of_not_lt outside)] at decided
  exact decided (judge_nil v)

/-- A decided judgement survives any surroundings (R100, R105). -/
theorem judge_surrounded {v : Width} {buf : List Byte} {off : Nat} (decided : judge v buf off ≠ .incomplete)
    (before more : List Byte) : judge v (before ++ buf ++ more) (before.length + off) = judge v buf off := by
  have inside : off ≤ buf.length := (off_lt_of_decided decided).le
  have same_candidate : (before ++ buf ++ more).drop (before.length + off) = buf.drop off ++ more := by
    rw [List.append_assoc, ← List.drop_drop, List.drop_left, List.drop_append_of_le_length inside]
  rw [judge_drop] at decided
  rw [judge_drop, same_candidate, judge_append decided more, ← judge_drop]

namespace Machine

/-! ### The operation DEC1 -/

/-- Under a legal W the state after DEC1 tells the judgement. -/
theorem judge_of_exec_dec1 {s : State} {v : Width} {buf : List Byte} {off : Nat} {r : DecResult}
    (hw : s.w = v.bytes) (run : exec (.dec1 buf off) s = .next { s with decRsp := s.decRsp ++ [r] }) :
    judge v buf off = r := by
  rw [exec_dec1 hw] at run
  injection run with run
  injection run with _ _ _ responses
  exact List.singleton_inj.mp (List.append_cancel_left responses)

/-- Settles O22, by `judge_no_length_at`. -/
theorem dec1WithoutLengthIsIncomplete : Obligations.Dec1WithoutLengthIsIncomplete := by
  intro s v buf off hw found short
  rw [exec_dec1 hw, judge_no_length_at v found short]

/-- Settles O23: the bytes behind the length field are fewer than the 3 + L that `judge_short` asks for. -/
theorem dec1BeforeTheWholeFrameIsIncomplete : Obligations.Dec1BeforeTheWholeFrameIsIncomplete := by
  intro s v before field after len hw size hlen short
  rw [← readLength_eq_ite] at hlen
  have few : after.length < 3 + readLength v field := by omega
  have verdict : judge v (before ++ [0xFE] ++ field ++ after) before.length = .incomplete := by
    rw [List.append_assoc, List.append_assoc, judge_at_length]
    exact judge_short v field after size few
  rw [exec_dec1 hw, verdict]

/-- Settles O24. `judge_complete` gives both verdicts; the frame's recomputed checksum is the exclusive-or of the
candidate's own body, by `Frame.body_of_read_fields`. -/
theorem dec1JudgesACompleteCandidate : Obligations.Dec1JudgesACompleteCandidate := by
  intro s v before field pl after hdr op received hw size hpl body hbody
  have announces : readLength v field = pl.length := by rw [readLength_eq_ite, hpl]
  have body_eq : body = field ++ hdr :: op :: pl := by simp [hbody]
  have verdict : judge v (before ++ [0xFE] ++ body ++ [received] ++ after) before.length =
      if xor8 body = received then .frame ⟨headerType hdr, headerSubsystem hdr, op, pl⟩ (total v pl.length)
      else .invalid .checksumMismatch (sof :: (field ++ hdr :: op :: (pl ++ [received]))) := by
    have candidate : before ++ [0xFE] ++ body ++ [received] ++ after =
        before ++ sof :: (field ++ hdr :: op :: (pl ++ received :: after)) := by simp [body_eq, sof]
    rw [candidate, judge_at_length, judge_complete v field hdr op pl received after size announces, body_eq]
  rw [exec_dec1 hw, verdict]
  constructor
  · intro agree
    have checksum : Frame.fcs v ⟨headerType hdr, headerSubsystem hdr, op, pl⟩ = received := by
      rw [Frame.fcs, Frame.body_of_read_fields hdr op size announces, ← body_eq]
      exact agree
    rw [if_pos (show xor8 body = received from agree)]
    exact ⟨⟨headerType hdr, headerSubsystem hdr, op, pl⟩, rfl, rfl, rfl, rfl, checksum, rfl⟩
  · intro differ
    rw [if_neg (show xor8 body ≠ received from differ)]
    exact ⟨_, rfl⟩

/-- Settles O26. The verdict on a buffer that holds all T bytes is the verdict on these T bytes by themselves
(`judge_eq_of_take`), which the other buffer shares. -/
theorem dec1VerdictIsStable : Obligations.Dec1VerdictIsStable := by
  intro s v buf off hw
  refine ⟨?same_bytes, ?same_marker, ?surrounded⟩
  case same_bytes =>
    intro other pos t ht inside agree
    have size : t = total v (readLength v (((buf.drop off).drop 1).take v.bytes)) := by rwa [List.drop_drop]
    have whole : t ≤ (buf.drop off).length := by rw [List.length_drop]; omega
    have decided : judge v ((buf.drop off).take t) 0 ≠ .incomplete := judge_take_total_decided size whole
    refine ⟨judge v ((buf.drop off).take t) 0, decided, ?_, ?_⟩
    · rw [exec_dec1 hw, judge_eq_of_take decided]
    · rw [← agree] at decided ⊢
      rw [exec_dec1 hw, judge_eq_of_take decided]
  case same_marker =>
    intro other pos b found bad found_other
    refine ⟨[b], ?_, ?_⟩
    · rw [exec_dec1 hw, judge_bad_marker_at v found bad]
    · rw [exec_dec1 hw, judge_bad_marker_at v found_other bad]
  case surrounded =>
    intro before more r run decided
    obtain rfl : judge v buf off = r := judge_of_exec_dec1 hw run
    rw [exec_dec1 hw, judge_surrounded decided before more]

end Machine

end Sys2Proof
end

section
/-! Proofs of the statements about the stream reassembler (spec/42_stream_reassembler.md). -/

namespace Sys2Proof

/-! ### A chunk that is a wire frame -/

/-- What the frame decoder reads is the wire form of a frame that its format can count, and it leaves what follows. -/
theorem decode_eq_ok {v : Width} {bytes rest : List Byte} {i : Instr} (read : decode v bytes = .ok (i, rest)) :
    ∃ f : Frame, f.pl.length ≤ lmax v ∧ bytes = f.wire v ++ rest ∧
      (v = .one ∧ i = .frameW1 f ∨ v = .two ∧ i = .frameW2 f) := by
  unfold decode at read
  split at read
  case h_1 => contradiction
  case h_2 => contradiction
  case h_3 => contradiction
  case h_4 f n verdict =>
    obtain ⟨fits, rfl, more, rfl⟩ := judge_frame verdict
    rw [← f.wire_length v, List.drop_left] at read
    cases v with
    | one => cases read; exact ⟨f, of_decide_eq_true fits, rfl, .inl ⟨rfl, rfl⟩⟩
    | two => cases read; exact ⟨f, of_decide_eq_true fits, rfl, .inr ⟨rfl, rfl⟩⟩

/-- A frame's bytes without its last ones are undecided: a verdict on them would be the whole frame's (R105), and that
one consumes every byte. -/
theorem judge_strict_prefix {v : Width} {f : Frame} {front back : List Byte} (fits : f.pl.length ≤ lmax v)
    (cut : front ++ back = f.wire v) (missing : back ≠ []) : judge v front 0 = .incomplete := by
  by_contra decided
  have verdict : judge v front 0 = .frame f (total v f.pl.length) := by
    rw [← judge_append decided back, cut, ← List.append_nil (f.wire v)]
    exact judge_wire v f [] (decide_eq_true fits)
  obtain ⟨_, _, more, front_eq⟩ := judge_frame verdict
  have nothing_more : more ++ back = [] := by rwa [front_eq, List.append_assoc, List.append_right_eq_self] at cut
  exact missing (List.append_eq_nil_iff.mp nothing_more).2

namespace Machine

/-! ### One PUSH -/

theorem desyncOf_length (m : List Byte) : desyncOf m.length = if m = [] then [] else [.evDesync m.length] := by
  simp [desyncOf]

/-- PUSH by a pass over the old buffer and the chunk. -/
theorem exec_push {v : Width} {chunk : List Byte} {s : State} {events : List Event} {rest : Memory}
    (hw : s.w = v.bytes) (pass : Reassembles v (s.buf ++ chunk) events rest) :
    exec (.push chunk) s = .next { s with buf := rest, evt := s.evt ++ events } :=
  execPush_eq hw pass

/-- The loop goes on at `more` after the events `front`: every pass over `more` is the end of a pass over the old buffer
and the chunk, so an empty PUSH on the state in between ends where the whole PUSH ends. -/
theorem exec_push_goes_on {v : Width} {chunk : List Byte} {s : State} {front : List Event} {more : Memory}
    (hw : s.w = v.bytes)
    (extend : ∀ events rest, Reassembles v more events rest → Reassembles v (s.buf ++ chunk) (front ++ events) rest) :
    ∃ t, exec (.push chunk) s = .next t ∧
      exec (.push []) { s with buf := more, evt := s.evt ++ front } = .next t := by
  obtain ⟨events, rest, pass⟩ := reassembles_exists v more
  refine ⟨_, exec_push hw (extend events rest pass), ?_⟩
  rw [← List.append_nil more] at pass
  rw [exec_push (s := { s with buf := more, evt := s.evt ++ front }) hw pass, List.append_assoc]

/-- Settles O31, by the rule of a pass without a marker. -/
theorem pushWithoutMarkerDiscardsEverything : Obligations.PushWithoutMarkerDiscardsEverything := by
  intro s v chunk hw no_marker
  rw [← desyncOf_length]
  exact exec_push hw (.noMarker no_marker)

/-- Settles O32, by the rule of a pass whose first candidate is undecided. -/
theorem pushKeepsAnUndecidedCandidate : Obligations.PushKeepsAnUndecidedCandidate := by
  intro s v chunk noise cand hw content no_marker run
  have pass : Reassembles v (s.buf ++ chunk) (desyncOf noise.length) (sof :: cand) := by
    rw [content]
    exact .waits no_marker (judge_of_exec_dec1 hw run)
  rw [← desyncOf_length]
  exact exec_push hw pass

/-- Settles O33: the rule of a failed candidate extends every pass over the bytes behind its marker. -/
theorem pushDropsOneByteAfterInvalid : Obligations.PushDropsOneByteAfterInvalid := by
  intro s v chunk noise cand tag r hw content no_marker run
  rw [← desyncOf_length, List.append_assoc]
  apply exec_push_goes_on hw
  intro events rest pass
  rw [content, List.append_assoc]
  exact .invalid no_marker (judge_of_exec_dec1 hw run) pass

/-- Settles O34: the candidate is the frame's bytes and then the rest (`judge_frame`), and the rule of a frame extends
every pass over that rest. -/
theorem pushEmitsAndEvictsAFrame : Obligations.PushEmitsAndEvictsAFrame := by
  intro s v chunk noise cand f n hw content no_marker run
  obtain ⟨fits, rfl, more, cand_eq⟩ := judge_frame (judge_of_exec_dec1 hw run)
  rw [← desyncOf_length, List.append_assoc, cand_eq, ← f.wire_length v, List.drop_left]
  apply exec_push_goes_on hw
  intro events rest pass
  rw [content, cand_eq, List.append_assoc]
  exact .frame no_marker fits pass

/-! ### A series of chunks on RX -/

/-- Whatever RX names a chunk, it runs as the PUSH of that chunk, and W is fixed after it. -/
theorem rxInstr_is_push (width : Option Width) (chunk : List Byte) :
    (∀ s, exec (rxInstr width chunk) s = execPush chunk s) ∧
      ∀ running, sessionAfter (rxInstr width chunk) running = true := by
  unfold rxInstr
  split
  case h_1 => exact ⟨fun _ => rfl, fun _ => rfl⟩
  case h_2 v =>
    split
    case h_1 i read =>
      obtain ⟨f, fits, rfl, ⟨rfl, rfl⟩ | ⟨rfl, rfl⟩⟩ := decode_eq_ok read
      · rw [List.append_nil]; exact ⟨deliver_ok fits, fun _ => rfl⟩
      · rw [List.append_nil]; exact ⟨deliver_ok fits, fun _ => rfl⟩
    case h_2 => exact ⟨fun _ => rfl, fun _ => rfl⟩

/-- One step of a series: a pass over BUF and the first chunk. -/
theorem step_withChunks_cons {v : Width} {s : State} {chunk : List Byte} {events : List Event} {rest : Memory}
    (hw : s.w = v.bytes) (pass : Reassembles v (s.buf ++ chunk) events rest) (chunks : List (List Byte)) :
    step (s.withChunks (chunk :: chunks)) =
      .next (State.withChunks { s with buf := rest, evt := s.evt ++ events, inSession := true } chunks) := by
  obtain ⟨runs, session⟩ := rxInstr_is_push (s.withChunks (chunk :: chunks)).width? chunk
  have pushed := execPush_eq (s := s.withChunks chunks) hw pass
  calc step (s.withChunks (chunk :: chunks))
    _ = noteSession (rxInstr _ chunk) (exec (rxInstr _ chunk) (s.withChunks chunks)) := rfl
    _ = noteSession (rxInstr _ chunk)
          (.next { s.withChunks chunks with buf := rest, evt := s.evt ++ events }) := by rw [runs, pushed]; rfl
    _ = .next (State.withChunks { s with buf := rest, evt := s.evt ++ events, inSession := true } chunks) := by
      rw [noteSession, session]; rfl

theorem run_succ_of_next {M : Host.Core} {s t : M.State} (first : M.step s = .next t) (k : Nat) :
    M.run (k + 1) s = M.run k t := by
  rw [Host.Core.run, first]

theorem run_withChunks_cons {v : Width} {s : State} {chunk : List Byte} {events : List Event} {rest : Memory}
    (hw : s.w = v.bytes) (pass : Reassembles v (s.buf ++ chunk) events rest) (chunks : List (List Byte)) :
    Host.Core.run Sys2Proof.core (chunk :: chunks).length (s.withChunks (chunk :: chunks)) =
      Host.Core.run Sys2Proof.core chunks.length
        (State.withChunks { s with buf := rest, evt := s.evt ++ events, inSession := true } chunks) :=
  run_succ_of_next (M := Sys2Proof.core) (s := s.withChunks (chunk :: chunks)) (step_withChunks_cons hw pass chunks) _

/-! ### Packed frames -/

theorem Memory.wf_eq_true_iff {v : Width} {m : Memory} :
    m.wf v = true ↔ m = [] ∨ byteAt m 0 = sof ∧ judge v m 0 = .incomplete := by
  simp [Memory.wf]

/-- What BUF may hold between operations (10_state.md R22), a pass leaves as it is. -/
theorem Reassembles.of_wf {v : Width} {m : Memory} (wf : m.wf v = true) : Reassembles v m [] m := by
  cases m with
  | nil => exact .noMarker List.not_mem_nil
  | cons b cand =>
    obtain ⟨marker, undecided⟩ := (Memory.wf_eq_true_iff.mp wf).resolve_left (List.cons_ne_nil b cand)
    obtain rfl : b = sof := marker
    exact .waits (noise := []) List.not_mem_nil undecided

/-- A frame's bytes without its last ones may stand in BUF between operations. -/
theorem wf_of_strict_prefix {v : Width} {f : Frame} {front back : List Byte} (fits : f.pl.length ≤ lmax v)
    (cut : front ++ back = f.wire v) (missing : back ≠ []) : Memory.wf v front = true := by
  have undecided := judge_strict_prefix fits cut missing
  cases front with
  | nil => rfl
  | cons b front =>
    rw [f.wire_eq v, List.cons_append] at cut
    injection cut with marker _
    exact Memory.wf_eq_true_iff.mpr (.inr ⟨marker, undecided⟩)

/-- Whole frames do not stay in BUF between operations. -/
theorem packed_eq_nil_of_wf {v : Width} {fs : List Frame} (fits : ∀ f ∈ fs, f.pl.length ≤ lmax v)
    (wf : Memory.wf v (fs.map (Frame.wire v)).flatten = true) : fs = [] := by
  cases fs with
  | nil => rfl
  | cons f fs =>
    have verdict := judge_wire v f (fs.map (Frame.wire v)).flatten (decide_eq_true (fits f List.mem_cons_self))
    rw [List.map_cons, List.flatten_cons] at wf
    obtain nothing | ⟨_, undecided⟩ := Memory.wf_eq_true_iff.mp wf
    · simp [f.wire_eq v] at nothing
    · simp [verdict] at undecided

/-- A pass over the first bytes of packed frames: it emits the frames that are there whole and keeps the bytes of the
next one that are there. -/
theorem reassembles_packed_front {v : Width} {fs : List Frame} (fits : ∀ f ∈ fs, f.pl.length ≤ lmax v) :
    ∀ {front back : List Byte}, front ++ back = (fs.map (Frame.wire v)).flatten →
      ∃ whole later kept, fs = whole ++ later ∧ Reassembles v front (whole.map .evFrame) kept ∧
        kept ++ back = (later.map (Frame.wire v)).flatten := by
  induction fs with
  | nil =>
    intro front back packed
    obtain ⟨rfl, rfl⟩ := List.append_eq_nil_iff.mp packed
    exact ⟨[], [], [], rfl, .noMarker List.not_mem_nil, rfl⟩
  | cons f fs ih =>
    obtain ⟨fits_f, fits_fs⟩ := List.forall_mem_cons.mp fits
    intro front back packed
    rw [List.map_cons, List.flatten_cons] at packed
    by_cases enough : (f.wire v).length ≤ front.length
    · obtain ⟨more, rfl⟩ := List.prefix_of_prefix_length_le ⟨_, packed.symm⟩ ⟨back, rfl⟩ enough
      rw [List.append_assoc, List.append_cancel_left_eq] at packed
      obtain ⟨whole, later, kept, rfl, pass, remain⟩ := ih fits_fs packed
      exact ⟨f :: whole, later, kept, rfl, .frame (noise := []) List.not_mem_nil (decide_eq_true fits_f) pass, remain⟩
    · obtain ⟨missing, wire_eq⟩ :=
        List.prefix_of_prefix_length_le ⟨back, rfl⟩ ⟨_, packed.symm⟩ (Nat.le_of_not_le enough)
      have some_missing : missing ≠ [] := by
        rintro rfl
        rw [List.append_nil] at wire_eq
        exact enough (congrArg List.length wire_eq).ge
      exact ⟨[], f :: fs, front, rfl, .of_wf (wf_of_strict_prefix fits_f wire_eq some_missing), packed⟩

/-- By induction on the chunks, with the bytes that BUF keeps of the next frame at the front of the packed frames still
to come: each PUSH delivers the frames that its chunk completes, and after the last chunk no frame is left. -/
theorem run_withChunks_packed {v : Width} (chunks : List (List Byte)) :
    ∀ (s : State) (fs : List Frame), s.w = v.bytes → s.buf.wf v = true → (∀ f ∈ fs, f.pl.length ≤ lmax v) →
      s.buf ++ chunks.flatten = (fs.map (Frame.wire v)).flatten →
      ∃ t, Host.Core.run Sys2Proof.core chunks.length (s.withChunks chunks) = .next t ∧
        t.buf = [] ∧ t.evt = s.evt ++ fs.map .evFrame := by
  induction chunks with
  | nil =>
    intro s fs hw wf fits packed
    rw [List.flatten_nil, List.append_nil] at packed
    obtain rfl : fs = [] := packed_eq_nil_of_wf fits (packed ▸ wf)
    exact ⟨s.withChunks [], rfl, packed, (List.append_nil s.evt).symm⟩
  | cons chunk chunks ih =>
    intro s fs hw wf fits packed
    rw [List.flatten_cons, ← List.append_assoc] at packed
    obtain ⟨whole, later, kept, rfl, pass, remain⟩ := reassembles_packed_front fits packed
    obtain ⟨t, run, empty, events⟩ := ih
      { s with buf := kept, evt := s.evt ++ whole.map .evFrame, inSession := true } later hw pass.rest_wf
      (fun f later_f => fits f (List.mem_append_right whole later_f)) remain
    refine ⟨t, (run_withChunks_cons hw pass chunks).trans run, empty, ?_⟩
    rw [events, List.map_append, List.append_assoc]

/-- Settles O39: `run_withChunks_packed` from the empty BUF. -/
theorem packedFramesAreAllDelivered : Obligations.PackedFramesAreAllDelivered := by
  intro s v fs chunks hw empty fits packed
  have wf : s.buf.wf v = true := by rw [empty, wf_nil]
  apply run_withChunks_packed chunks s fs hw wf fits
  rw [empty, List.nil_append, packed]

end Machine

end Sys2Proof
end

section
/-! Proofs of the statements about the wire format as a whole (spec/30_encoding.md): encode and decode are inverse to
each other, and body and checksum cancel. -/

namespace Sys2Proof

/-! ### Decoding what was encoded -/

theorem decode_wire_one {f : Frame} (fits : f.fits .one = true) (rest : List Byte) :
    decode .one (f.wire .one ++ rest) = .ok (.frameW1 f, rest) := by
  rw [decode, judge_wire .one f rest fits, ← f.wire_length .one]
  simp only [List.drop_left]

theorem decode_wire_two {f : Frame} (fits : f.fits .two = true) (rest : List Byte) :
    decode .two (f.wire .two ++ rest) = .ok (.frameW2 f, rest) := by
  rw [decode, judge_wire .two f rest fits, ← f.wire_length .two]
  simp only [List.drop_left]

theorem encode_frameW1 {f : Frame} (fits : f.fits .one = true) : encode (.frameW1 f) = some (f.wire .one) :=
  if_pos fits

theorem encode_frameW2 {f : Frame} (fits : f.fits .two = true) : encode (.frameW2 f) = some (f.wire .two) :=
  if_pos fits

theorem Frame.fits_iff {v : Width} {f : Frame} : f.fits v = true ↔ f.pl.length ≤ lmax v := decide_eq_true_iff

/-- Settles O11: a well-formed row is encoded as its frame's wire bytes, which decode to it. -/
theorem decodeOfEncodeIsTheInstruction : Obligations.DecodeOfEncodeIsTheInstruction := by
  refine ⟨?format_one, ?format_two, ?encoded⟩
  case format_one =>
    intro f bytes rest fits encoded
    rw [encode_frameW1 fits] at encoded
    injection encoded with encoded
    rw [← encoded, decode_wire_one fits]
  case format_two =>
    intro f bytes rest fits encoded
    rw [encode_frameW2 fits] at encoded
    injection encoded with encoded
    rw [← encoded, decode_wire_two fits]
  case encoded =>
    intro f
    constructor
    · intro fits
      rw [encode_frameW1 (Frame.fits_iff.mpr fits), Option.isSome_some]
    · intro fits
      rw [encode_frameW2 (Frame.fits_iff.mpr fits), Option.isSome_some]

/-- Settles O12, by `decode_eq_ok`: what decodes is the wire form of the frame that is answered. -/
theorem encodeOfDecodeIsTheBytes : Obligations.EncodeOfDecodeIsTheBytes := by
  intro v bytes rest i read
  obtain ⟨f, fits, rfl, ⟨rfl, rfl⟩ | ⟨rfl, rfl⟩⟩ := decode_eq_ok read
  · have fits := Frame.fits_iff.mpr fits
    exact ⟨fits, _, encode_frameW1 fits, rfl⟩
  · have fits := Frame.fits_iff.mpr fits
    exact ⟨fits, _, encode_frameW2 fits, rfl⟩

/-- Settles O13. Each chunk is a frame with its fields written in by R61 or R62, so both sides compute to the same. -/
theorem writtenOutFramesDecode : Obligations.WrittenOutFramesDecode := ⟨rfl, rfl, rfl, rfl⟩

/-! ### The checksum -/

@[simp] theorem xor8_singleton (b : Byte) : xor8 [b] = b := by simp

/-- Behind the start marker stand the body and its checksum. -/
theorem Frame.wire_drop_marker (v : Width) (f : Frame) : (f.wire v).drop 1 = f.body v ++ [f.fcs v] := by
  rw [Frame.wire, List.append_assoc, List.singleton_append, List.drop_one, List.tail_cons]

/-- Law (1) of R75: every byte of the body enters the exclusive-or a second time in the checksum. -/
theorem Frame.xor8_wire_drop_marker (v : Width) (f : Frame) : xor8 ((f.wire v).drop 1) = 0 := by
  rw [f.wire_drop_marker v, xor8_append, xor8_singleton]
  exact BitVec.xor_self

/-- Settles O10. -/
theorem bodyAndChecksumCancel : Obligations.BodyAndChecksumCancel := by
  intro v f
  constructor
  · rw [f.body_of_wire v]
    exact f.wire_getLast? v
  · exact f.xor8_wire_drop_marker v

end Sys2Proof
end

section
/-! Proofs of the statements about ENC beside a byte-serial encoder (spec/40_frame_encoder.md R84) and beside the
inbound side (spec/20_memory.md R53). -/

namespace Sys2Proof.Machine

/-- The running accumulator ends at the exclusive-or of what it started with and every byte emitted. -/
theorem serialEmit_eq (acc : Byte) (body : List Byte) : serialEmit acc body = body ++ [acc ^^^ xor8 body] := by
  induction body generalizing acc with
  | nil => simp [serialEmit]
  | cons b body ih => rw [serialEmit, ih, xor8_cons, BitVec.xor_assoc, List.cons_append]

theorem serialFrame_eq (v : Width) (f : Frame) : serialFrame v f = f.wire v := by
  simp [serialFrame, serialEmit_eq, Frame.wire, Frame.fcs]

/-- Settles O16. -/
theorem serialEncoderAgrees : Obligations.SerialEncoderAgrees := by
  intro s v mt ss op pl hw fits
  rw [serialFrame_eq]
  exact exec_enc_of_le hw mt ss op fits

/-- Settles O18. ENC appends to ENC_RSP a result that W and its operands fix, and the other operation changes BUF and
EVT by what BUF and the chunk fix, so neither sees the other. -/
theorem encCommutesWithTheInboundSide : Obligations.EncCommutesWithTheInboundSide := by
  intro s v mt ss op pl i hw inbound
  rcases inbound with ⟨chunk, rfl⟩ | rfl | rfl
  case inl =>
    obtain ⟨events, rest, pass⟩ := reassembles_exists v (s.buf ++ chunk)
    exact ⟨_, _, _, exec_enc hw mt ss op pl,
      exec_push (s := { s with encRsp := s.encRsp ++ [serialize v ⟨mt, ss, op, pl⟩] }) hw pass,
      exec_push hw pass,
      exec_enc (s := { s with buf := rest, evt := s.evt ++ events }) hw mt ss op pl⟩
  case inr.inl => exact ⟨_, _, _, exec_enc hw mt ss op pl, rfl, rfl, exec_enc (s := s.clear) hw mt ss op pl⟩
  case inr.inr => exact ⟨_, _, _, exec_enc hw mt ss op pl, rfl, rfl, exec_enc (s := s.clear) hw mt ss op pl⟩

end Sys2Proof.Machine
end

section
/-! Proofs of the statements about the verdicts of DEC1 (spec/41_frame_decoder.md): no byte, a bad marker, the tag of an
Invalid, and what an incomplete or a damaged frame is answered. -/

namespace Sys2Proof

/-- A complete candidate is a frame exactly when its bytes behind the marker cancel; otherwise its whole span is the tag
of a checksum mismatch (R97 to R99, R102). -/
theorem judge_span {v : Width} {field rest : List Byte} (after : List Byte) (size : field.length = v.bytes)
    (whole : rest.length = 3 + readLength v field) :
    (xor8 (field ++ rest) = 0 → ∃ f n, judge v (sof :: (field ++ rest ++ after)) 0 = .frame f n) ∧
      (xor8 (field ++ rest) ≠ 0 →
        judge v (sof :: (field ++ rest ++ after)) 0 = .invalid .checksumMismatch (sof :: (field ++ rest))) := by
  obtain ⟨hdr, op, tail, rfl⟩ : ∃ hdr op tail, rest = hdr :: op :: tail := by
    match rest, whole with
    | hdr :: op :: tail, _ => exact ⟨hdr, op, tail, rfl⟩
    | [], whole => rw [List.length_nil] at whole; omega
    | [_], whole => rw [List.length_singleton] at whole; omega
  obtain ⟨pl, fcs, rfl⟩ : ∃ pl fcs, tail = pl ++ [fcs] := by
    have some_tail : tail ≠ [] := by
      rintro rfl
      simp only [List.length_cons, List.length_nil] at whole
      omega
    exact ⟨_, _, (List.dropLast_append_getLast some_tail).symm⟩
  have announces : readLength v field = pl.length := by
    simp only [List.length_cons, List.length_append, List.length_nil] at whole
    omega
  have cancel : xor8 (field ++ hdr :: op :: (pl ++ [fcs])) = 0 ↔ xor8 (field ++ hdr :: op :: pl) = fcs := by
    have split_last : field ++ hdr :: op :: (pl ++ [fcs]) = (field ++ hdr :: op :: pl) ++ [fcs] := by simp
    rw [split_last, xor8_append, xor8_singleton]
    exact BitVec.xor_eq_zero_iff
  have span : field ++ hdr :: op :: (pl ++ [fcs]) ++ after = field ++ hdr :: op :: (pl ++ fcs :: after) := by simp
  rw [cancel, Ne, cancel, span, judge_complete v field hdr op pl fcs after size announces]
  constructor
  · intro agree
    exact ⟨_, _, if_pos agree⟩
  · intro differ
    exact if_neg differ

/-- Replacing one byte by another changes the exclusive-or. -/
theorem xor8_set_ne {bytes : List Byte} {k : Nat} {b old : Byte} (found : bytes[k]? = some old) (changed : b ≠ old) :
    xor8 (bytes.set k b) ≠ xor8 bytes := by
  obtain ⟨inside, rfl⟩ := List.getElem?_eq_some_iff.mp found
  have parts : bytes = bytes.take k ++ bytes[k] :: bytes.drop (k + 1) := by
    rw [← List.drop_eq_getElem_cons inside, List.take_append_drop]
  have before : xor8 bytes = xor8 (bytes.take k) ^^^ (bytes[k] ^^^ xor8 (bytes.drop (k + 1))) := by
    conv_lhs => rw [parts]
    rw [xor8_append, xor8_cons]
  have after : xor8 (bytes.set k b) = xor8 (bytes.take k) ^^^ (b ^^^ xor8 (bytes.drop (k + 1))) := by
    rw [List.set_eq_take_append_cons_drop, if_pos inside, xor8_append, xor8_cons]
  rw [before, after, Ne, BitVec.xor_right_inj, BitVec.xor_left_inj]
  exact changed

/-- A wire frame as the complete candidate that `judge_span` speaks of. -/
theorem Frame.exists_span {v : Width} {f : Frame} (fits : f.pl.length ≤ lmax v) :
    ∃ field rest, f.wire v = sof :: (field ++ rest) ∧ field.length = v.bytes ∧
      rest.length = 3 + readLength v field ∧ xor8 (field ++ rest) = 0 := by
  have cancel := f.xor8_wire_drop_marker v
  rw [f.wire_eq v, List.drop_one, List.tail_cons] at cancel
  refine ⟨_, _, f.wire_eq v, lengthField_length v _, ?_, cancel⟩
  rw [readLength_lengthField v _ fits]
  simp only [List.length_cons, List.length_append, List.length_nil]
  omega

/-- A wire frame with one byte behind the length field replaced is a checksum mismatch (R104): its length field still
asks for all the bytes, and they no longer cancel. -/
theorem judge_wire_set {v : Width} {f : Frame} {k : Nat} {b old : Byte} (fits : f.pl.length ≤ lmax v)
    (found : (f.wire v)[k]? = some old) (changed : b ≠ old) (behind : 1 + v.bytes ≤ k) :
    judge v ((f.wire v).set k b) 0 = .invalid .checksumMismatch ((f.wire v).set k b) := by
  obtain ⟨field, rest, wire, size, whole, cancel⟩ := Frame.exists_span fits
  obtain ⟨j, rfl⟩ : ∃ j, k = field.length + j + 1 := ⟨k - (1 + v.bytes), by omega⟩
  rw [wire, List.getElem?_cons_succ] at found
  have differ : xor8 (field ++ rest.set j b) ≠ 0 := by
    have set_rest : (field ++ rest).set (field.length + j) b = field ++ rest.set j b := by simp
    rw [← set_rest, ← cancel]
    exact xor8_set_ne found changed
  have wire_set : (f.wire v).set (field.length + j + 1) b = sof :: (field ++ rest.set j b) := by simp [wire]
  have verdict := (judge_span [] size (by rwa [List.length_set])).2 differ
  rw [wire_set, ← verdict, List.append_nil]

namespace Machine

/-! ### The operation DEC1 -/

/-- Settles O20. -/
theorem dec1WithNoByteIsIncomplete : Obligations.Dec1WithNoByteIsIncomplete := by
  intro s v buf off hw outside
  rw [exec_dec1 hw, judge_drop, List.drop_of_length_le outside, judge_nil]

/-- Settles O21, by `judge_bad_marker_at`. -/
theorem dec1BadStartMarker : Obligations.Dec1BadStartMarker := by
  intro s v buf off b hw found bad
  rw [exec_dec1 hw, judge_bad_marker_at v found bad]

/-- Settles O25: `judge_invalid` gives each tag. -/
theorem dec1TagsAnInvalidWithItsBytes : Obligations.Dec1TagsAnInvalidWithItsBytes := by
  intro s v buf tag off r hw run
  have verdict := judge_of_exec_dec1 hw run
  rw [judge_drop] at verdict
  obtain ⟨rfl, b, rest, cand, bad, rfl⟩ | ⟨rfl, field, hdr, op, pl, fcs, rest, rfl, cand, size, announces, _⟩ :=
    judge_invalid verdict
  case inl =>
    refine ⟨fun _ => ⟨b, ?_, bad, rfl⟩, fun other => by contradiction⟩
    rw [← List.head?_drop, cand, List.head?_cons]
  case inr =>
    refine ⟨fun other => by contradiction, fun _ => ⟨⟨rest, cand.symm⟩, rfl, ?_⟩⟩
    have length_bytes : (buf.drop (off + 1)).take v.bytes = field := by
      rw [← List.drop_drop, cand, List.cons_append, List.drop_one, List.tail_cons, List.append_assoc]
      exact List.take_left' size
    rw [length_bytes, announces]
    simp only [List.length_cons, List.length_append, List.length_nil, size]
    omega

/-- Settles O27: with the bytes that were cut off, the first `n` are the whole frame (`judge_strict_prefix`). -/
theorem dec1OfAStrictPrefixIsIncomplete : Obligations.Dec1OfAStrictPrefixIsIncomplete := by
  intro s v f n hw fits short
  have missing : (f.wire v).drop n ≠ [] := by
    rw [Ne, List.drop_eq_nil_iff, f.wire_length v, total]
    omega
  rw [exec_dec1 hw, judge_strict_prefix fits (List.take_append_drop n (f.wire v)) missing]

/-- Settles O28, by `judge_wire_set` behind the length field and `judge_bad_marker_at` at the marker. -/
theorem dec1RejectsAnyOneByteError : Obligations.Dec1RejectsAnyOneByteError := by
  intro s v f k b old hw fits found changed
  constructor
  · intro behind
    rw [exec_dec1 hw, judge_wire_set fits found changed behind]
  · rintro rfl
    obtain ⟨inside, rfl⟩ := List.getElem?_eq_some_iff.mp found
    rw [exec_dec1 hw, judge_bad_marker_at v (List.getElem?_set_self inside) changed]

/-- Settles O29, by the two verdicts of `judge_span`. -/
theorem dec1AcceptsExactlyWhatCancels : Obligations.Dec1AcceptsExactlyWhatCancels := by
  intro s v field rest after hw size whole
  obtain ⟨accepted, rejected⟩ := judge_span after size whole
  have candidate : [0xFE] ++ field ++ rest ++ after = sof :: (field ++ rest ++ after) := by simp [sof]
  rw [candidate]
  constructor
  · rintro ⟨f, n, run⟩
    by_contra differ
    have verdict := (judge_of_exec_dec1 hw run).symm.trans (rejected differ)
    contradiction
  · intro cancel
    obtain ⟨f, n, verdict⟩ := accepted cancel
    exact ⟨f, n, by rw [exec_dec1 hw, verdict]⟩

end Machine

end Sys2Proof
end

section
/-! Proofs of the statements about one PUSH (spec/42_stream_reassembler.md): its loop ends, what BUF and the events are
after it, and the frames that it delivers. -/

namespace Sys2Proof

/-! ### When a candidate is decided -/

/-- A marker and a whole length field, and fewer bytes than it asks for (R96). -/
theorem judge_of_few {v : Width} {cand : List Byte} (field_there : v.bytes ≤ cand.length)
    (few : 1 + cand.length < total v (readLength v (cand.take v.bytes))) : judge v (sof :: cand) 0 = .incomplete := by
  have size : (cand.take v.bytes).length = v.bytes := List.length_take_of_le field_there
  rw [total] at few
  rw [← List.take_append_drop v.bytes cand]
  apply judge_short v _ _ size
  rw [List.length_drop]
  omega

/-- No verdict on a candidate behind a marker comes before the smallest frame's bytes are there. -/
theorem length_of_decided {v : Width} {cand : List Byte} (decided : judge v (sof :: cand) 0 ≠ .incomplete) :
    3 + v.bytes ≤ cand.length := by
  by_contra short
  rcases Nat.lt_or_ge cand.length v.bytes with no_field | field_there
  · exact decided (judge_no_length v cand no_field)
  · exact decided (judge_of_few field_there (by rw [total]; omega))

namespace Machine

/-! ### The loop ends -/

/-- An iteration never lengthens BUF, and one that goes on has evicted a byte: an Invalid its marker, a frame its whole
span (R119). -/
theorem iteration_shortens (v : Width) (s : State) :
    (∃ t, iteration v s = .stop t ∧ t.buf.length ≤ s.buf.length) ∨
      ∃ t, iteration v s = .continue t ∧ t.buf.length < s.buf.length := by
  by_cases marker : sof ∈ s.buf
  swap
  · exact .inl ⟨_, iteration_noMarker marker, Nat.zero_le _⟩
  obtain ⟨noise, cand, content, no_marker⟩ := List.eq_append_cons_of_mem marker
  rcases verdict : judge v (sof :: cand) 0 with ⟨f, n⟩ | _ | ⟨r, tag⟩
  case frame =>
    obtain ⟨fits, _, rest, cand_eq⟩ := judge_frame verdict
    refine .inr ⟨_, iteration_frame fits (cand_eq ▸ content) no_marker, ?_⟩
    rw [content, cand_eq, List.length_append, List.length_append, f.wire_length v, total]
    dsimp only
    omega
  case incomplete =>
    refine .inl ⟨_, iteration_waits content no_marker verdict, ?_⟩
    rw [content, List.length_append]
    exact Nat.le_add_left _ _
  case invalid =>
    refine .inr ⟨_, iteration_invalid content no_marker verdict, ?_⟩
    rw [content, List.length_append, List.length_cons]
    exact Nat.lt_add_left _ (Nat.lt_succ_self _)

/-- Settles O35: an iteration that goes on shortens BUF, and with more fuel than BUF has bytes the loop does one and the
same pass. -/
theorem pushLoopTerminates : Obligations.PushLoopTerminates := by
  constructor
  · intro v s t goes_on
    obtain ⟨u, stops, _⟩ | ⟨u, goes_on_u, shorter⟩ := iteration_shortens v s
    · rw [goes_on] at stops
      contradiction
    · rw [goes_on] at goes_on_u
      injection goes_on_u with same
      rwa [same]
  · intro v s fuel enough
    obtain ⟨events, rest, pass⟩ := reassembles_exists v s.buf
    rw [loop_eq pass s fuel rfl enough, loop_eq pass s _ rfl (Nat.lt_succ_self _)]

/-- Settles O30. -/
theorem pushCompletesAndWritesOnlyBufferAndEvents : Obligations.PushCompletesAndWritesOnlyBufferAndEvents := by
  intro s v chunk hw
  obtain ⟨events, rest, pass⟩ := reassembles_exists v (s.buf ++ chunk)
  exact ⟨rest, events, exec_push hw pass⟩

/-! ### The events of a PUSH -/

/-- Settles O36: every event of a pass has the form `eventWf` (`Reassembles.events_wf`). -/
theorem pushEventsHaveTheirForms : Obligations.PushEventsHaveTheirForms := by
  intro s t chunk run
  obtain ⟨v, events, rest, _, pass, rfl⟩ := execPush_next run
  refine ⟨events, rfl, fun e emitted => ?_⟩
  have form : eventWf e = true := List.all_eq_true.mp pass.events_wf e emitted
  constructor
  · rintro n rfl
    exact of_decide_eq_true form
  · rintro r tag rfl
    simp only [eventWf, Bool.and_eq_true, beq_iff_eq] at form
    exact form.1.1

/-- A pass over fewer bytes than the smallest frame has gives no verdict. -/
theorem Reassembles.all_desync_of_short {v : Width} {m rest : Memory} {events : List Event}
    (pass : Reassembles v m events rest) (short : m.length < 4 + v.bytes) : ∀ e ∈ events, isDesync e = true := by
  have notice (n : Nat) : ∀ e ∈ desyncOf n, isDesync e = true := by
    intro e emitted
    unfold desyncOf at emitted
    split at emitted
    · simp at emitted
    · rw [List.mem_singleton.mp emitted]; rfl
  cases pass with
  | noMarker _ => exact notice _
  | waits _ _ => exact notice _
  | invalid _ verdict _ =>
    have := length_of_decided (by rw [verdict]; exact DecResult.noConfusion)
    rw [List.length_append, List.length_cons] at short
    omega
  | @frame noise more f _ _ _ _ _ =>
    rw [List.length_append, List.length_append, f.wire_length v, total] at short
    omega

/-- A pass that begins at a decided candidate begins with its verdict. -/
theorem exists_pass_of_decided {v : Width} {cand : Memory} (decided : judge v (sof :: cand) 0 ≠ .incomplete) :
    ∃ e later rest, Reassembles v (sof :: cand) (e :: later) rest ∧ isDesync e = false := by
  rcases verdict : judge v (sof :: cand) 0 with ⟨f, n⟩ | _ | ⟨r, tag⟩
  case frame =>
    obtain ⟨fits, _, more, cand_eq⟩ := judge_frame verdict
    obtain ⟨later, rest, pass⟩ := reassembles_exists v more
    rw [cand_eq]
    exact ⟨_, later, rest, .frame (noise := []) List.not_mem_nil fits pass, rfl⟩
  case incomplete => exact absurd verdict decided
  case invalid =>
    obtain ⟨later, rest, pass⟩ := reassembles_exists v cand
    exact ⟨_, later, rest, .invalid (noise := []) List.not_mem_nil verdict pass, rfl⟩

/-! ### BUF between operations -/

/-- The form of R22 as the statements write it. -/
theorem Memory.wf_iff_marker {v : Width} {m : Memory} :
    m.wf v = true ↔ m = [] ∨ m[0]? = some sof ∧ judge v m 0 = .incomplete := by
  rw [Memory.wf_eq_true_iff]
  cases m with
  | nil => simp
  | cons b m => simp [byteAt]

/-- Under a legal W the form of BUF is the one of that width. -/
theorem bufWf_eq {s : State} {v : Width} (hw : s.w = v.bytes) : s.bufWf = s.buf.wf v := by
  simp [State.bufWf, width?_eq hw]

/-- BUF between operations is shorter than the largest frame (R121). -/
theorem Memory.length_lt_of_wf {v : Width} {m : Memory} (wf : m.wf v = true) : m.length < totalMax v := by
  obtain rfl | ⟨_, undecided⟩ := Memory.wf_eq_true_iff.mp wf
  · rw [List.length_nil, totalMax, total]
    omega
  · exact judge_incomplete_length undecided

/-- Settles O41: a pass leaves a BUF of the form of R22 as it is. -/
theorem emptyChunkChangesNothing : Obligations.EmptyChunkChangesNothing := by
  intro s v hw form
  have wf : s.buf.wf v = true :=
    Memory.wf_iff_marker.mpr (form.imp_right fun ⟨marker, run⟩ => ⟨marker, judge_of_exec_dec1 hw run⟩)
  have pass : Reassembles v (s.buf ++ []) [] s.buf := by
    rw [List.append_nil]
    exact .of_wf wf
  rw [exec_push hw pass, List.append_nil]

/-- Settles O42: a pass leaves BUF in the form of R22 (`Reassembles.rest_wf`). -/
theorem bufferAfterPushIsEmptyOrUndecided : Obligations.BufferAfterPushIsEmptyOrUndecided := by
  intro s t v chunk hw run
  obtain ⟨u, events, rest, hu, pass, ht⟩ := execPush_next run
  obtain rfl : v = u := Width.bytes_injective (hw.symm.trans hu)
  have ht_w : t.w = v.bytes := by rw [ht, ← hw]
  have wf : t.buf.wf v = true := by rw [ht]; exact pass.rest_wf
  refine ⟨(Memory.wf_iff_marker.mp wf).imp_right ?_, Memory.length_lt_of_wf wf⟩
  rintro ⟨marker, undecided⟩
  exact ⟨marker, by rw [exec_dec1 ht_w, undecided]⟩

/-- Settles O43. -/
theorem bufferPeakIsBounded : Obligations.BufferPeakIsBounded := by
  constructor
  · intro s v chunk c wf hw chunk_le
    obtain ⟨_, buf_wf, _⟩ := (wf_iff s).mp wf
    rw [bufWf_eq hw] at buf_wf
    have := Memory.length_lt_of_wf buf_wf
    rw [State.append_buf, List.length_append, bufCapNeeded]
    omega
  · intro v s t ends
    obtain ⟨u, stops, shorter⟩ | ⟨u, goes_on, shorter⟩ := iteration_shortens v s
    · rw [stops] at ends
      simp only [reduceCtorEq, false_or, Control.stop.injEq] at ends
      rwa [← ends]
    · rw [goes_on] at ends
      simp only [reduceCtorEq, or_false, Control.continue.injEq] at ends
      rw [← ends]
      exact shorter.le

/-! ### The phase -/

theorem phase_eq_body_iff {v : Width} {m : Memory} : phase v m = .body ↔ 1 + v.bytes ≤ m.length := by
  unfold phase
  split
  case isTrue empty => simp [empty]
  case isFalse => split <;> simp <;> omega

theorem bytesNeeded_of_body {v : Width} {m : Memory} (body : phase v m = .body) :
    bytesNeeded v m = total v (readLength v (slice m 1 v.bytes)) - m.length := by
  rw [bytesNeeded, body]

/-- Before the length field is complete, the smallest frame's bytes are asked for. -/
theorem bytesNeeded_of_not_body {v : Width} {m : Memory} (not_body : phase v m ≠ .body) :
    bytesNeeded v m = 4 + v.bytes - m.length := by
  unfold bytesNeeded
  split
  case h_1 hunt =>
    obtain rfl : m = [] := by
      unfold phase at hunt
      split at hunt
      · assumption
      · split at hunt <;> contradiction
    rfl
  case h_2 => rfl
  case h_3 body => exact absurd body not_body

/-- In phase BODY BUF is a marker, the whole length field and perhaps more, and the length field stays what it is when
a chunk is appended. -/
theorem exists_cand_of_body {v : Width} {m : Memory} (wf : m.wf v = true) (body : phase v m = .body) :
    ∃ cand, m = sof :: cand ∧ v.bytes ≤ cand.length ∧ ∀ chunk : List Byte,
      readLength v ((cand ++ chunk).take v.bytes) = readLength v (slice m 1 v.bytes) := by
  have field_there := phase_eq_body_iff.mp body
  match m, Memory.wf_eq_true_iff.mp wf with
  | [], _ => simp at field_there
  | b :: cand, .inr ⟨marker, _⟩ =>
    obtain rfl : b = sof := marker
    rw [List.length_cons] at field_there
    refine ⟨cand, rfl, by omega, fun chunk => ?_⟩
    rw [List.take_append_of_le_length (by omega)]
    rfl

/-- Settles O44. Before the length field is complete, the bytes are fewer than the smallest frame's; in BODY the length
field decides whether the candidate is undecided (`judge_of_few`) or not (`judge_decided`). -/
theorem phaseTellsWhenAVerdictComes : Obligations.PhaseTellsWhenAVerdictComes := by
  intro s v chunk hw wf
  rw [bufWf_eq hw] at wf
  constructor
  · intro few
    obtain ⟨events, rest, pass⟩ := reassembles_exists v (s.buf ++ chunk)
    refine ⟨_, events, exec_push hw pass, rfl, ?_⟩
    by_cases body : phase v s.buf = .body
    · obtain ⟨cand, content, field_there, same_field⟩ := exists_cand_of_body wf body
      rw [bytesNeeded_of_body body, ← same_field chunk, content, List.length_cons] at few
      rw [content, List.cons_append] at pass
      have undecided : judge v (sof :: (cand ++ chunk)) 0 = .incomplete :=
        judge_of_few (by rw [List.length_append]; omega) (by rw [List.length_append]; omega)
      have waits : Reassembles v (sof :: (cand ++ chunk)) [] _ := .waits (noise := []) List.not_mem_nil undecided
      rw [(pass.unique waits).1]
      simp
    · rw [bytesNeeded_of_not_body body] at few
      exact pass.all_desync_of_short (by rw [List.length_append]; omega)
  · intro body enough
    obtain ⟨cand, content, field_there, same_field⟩ := exists_cand_of_body wf body
    rw [bytesNeeded_of_body body, ← same_field chunk, content, List.length_cons] at enough
    have decided : judge v (sof :: (cand ++ chunk)) 0 ≠ .incomplete := by
      apply judge_decided
      rw [List.drop_one, List.tail_cons, List.length_cons, List.length_append]
      omega
    obtain ⟨e, later, rest, pass, verdict⟩ := exists_pass_of_decided decided
    rw [← List.cons_append, ← content] at pass
    exact ⟨_, e, later, exec_push hw pass, rfl, verdict⟩

/-! ### Frames that arrive -/

/-- Noise and then a frame, with nothing behind it. -/
theorem Reassembles.of_noise_frame {v : Width} {noise : List Byte} {f : Frame} (no_marker : sof ∉ noise)
    (fits : f.pl.length ≤ lmax v) :
    Reassembles v (noise ++ f.wire v) (desyncOf noise.length ++ [.evFrame f]) [] := by
  have pass : Reassembles v (noise ++ (f.wire v ++ [])) _ [] :=
    .frame no_marker (Frame.fits_iff.mpr fits) (.noMarker List.not_mem_nil)
  rwa [List.append_nil] at pass

/-- A frame at the configured width, pushed on an empty BUF behind some noise. -/
theorem exec_push_frame {s : State} {v : Width} {noise : List Byte} {f : Frame} (hw : s.w = v.bytes)
    (empty : s.buf = []) (no_marker : sof ∉ noise) (fits : f.pl.length ≤ lmax v) :
    exec (.push (noise ++ f.wire v)) s =
      .next { s with evt := s.evt ++ (desyncOf noise.length ++ [.evFrame f]) } := by
  have pass : Reassembles v (s.buf ++ (noise ++ f.wire v)) (desyncOf noise.length ++ [.evFrame f]) [] := by
    rw [empty, List.nil_append]
    exact .of_noise_frame no_marker fits
  rw [exec_push hw pass, ← empty]

/-- Settles O40. -/
theorem noiseThenFrame : Obligations.NoiseThenFrame := by
  intro s v noise f hw empty some_noise no_marker fits
  rw [exec_push_frame hw empty no_marker fits, desyncOf_length, if_neg some_noise]
  rfl

theorem exec_frameW1_of_le {f : Frame} (fits : f.pl.length ≤ 255) (s : State) :
    exec (.frameW1 f) s = exec (.push (f.wire .one)) s :=
  deliver_ok fits s

theorem exec_frameW2_of_le {f : Frame} (fits : f.pl.length ≤ 65535) (s : State) :
    exec (.frameW2 f) s = exec (.push (f.wire .two)) s :=
  deliver_ok fits s

/-- Settles O45: `exec_push_frame` without noise. -/
theorem arrivingFrameIsDelivered : Obligations.ArrivingFrameIsDelivered := by
  intro s f empty
  constructor
  · intro hw fits
    rw [exec_frameW1_of_le fits]
    exact exec_push_frame (v := .one) (noise := []) hw empty List.not_mem_nil fits
  · intro hw fits
    rw [exec_frameW2_of_le fits]
    exact exec_push_frame (v := .two) (noise := []) hw empty List.not_mem_nil fits

theorem exec_push_completes {s : State} {v : Width} (hw : s.w = v.bytes) (chunk : List Byte) :
    ∃ t, exec (.push chunk) s = .next t := by
  obtain ⟨_, _, run⟩ := pushCompletesAndWritesOnlyBufferAndEvents s v chunk hw
  exact ⟨_, run⟩

/-- Settles O46. -/
theorem arrivingFrameIsThePushOfItsBytes : Obligations.ArrivingFrameIsThePushOfItsBytes := by
  intro s f
  refine ⟨?format_one, ?format_two, fun tooLong => deliver_tooLong (v := .one) tooLong s,
    fun tooLong => deliver_tooLong (v := .two) tooLong s⟩
  case format_one =>
    intro fits
    rw [exec_frameW1_of_le fits]
    exact ⟨rfl, fun v hw => exec_push_completes hw _⟩
  case format_two =>
    intro fits
    rw [exec_frameW2_of_le fits]
    exact ⟨rfl, fun v hw => exec_push_completes hw _⟩

end Machine

end Sys2Proof
end

section
/-! Proofs of the statements about a series of chunks on RX: the bytes are all accounted for (spec/20_memory.md R58),
and the cuts between the chunks do not matter (spec/42_stream_reassembler.md R123). -/

namespace Sys2Proof.Machine

/-! ### The passes of a series, one after the other -/

/-- `Passes v m chunks events rest`: with `m` in BUF, the passes over `chunks`, one chunk after the other, emit `events`
and leave `rest`. -/
inductive Passes (v : Width) : Memory → List (List Byte) → List Event → Memory → Prop where
  | nil {m : Memory} : Passes v m [] [] m
  | cons {m kept rest : Memory} {chunk : List Byte} {chunks : List (List Byte)} {events later : List Event}
      (first : Reassembles v (m ++ chunk) events kept) (next : Passes v kept chunks later rest) :
      Passes v m (chunk :: chunks) (events ++ later) rest

theorem passes_exists (v : Width) (m : Memory) (chunks : List (List Byte)) :
    ∃ events rest, Passes v m chunks events rest := by
  induction chunks generalizing m with
  | nil => exact ⟨[], m, .nil⟩
  | cons chunk chunks ih =>
    obtain ⟨events, kept, first⟩ := reassembles_exists v (m ++ chunk)
    obtain ⟨later, rest, next⟩ := ih kept
    exact ⟨_, rest, .cons first next⟩

/-- The passes are what the machine does with the series as the host's transactions. -/
theorem Passes.run {v : Width} {m rest : Memory} {chunks : List (List Byte)} {events : List Event}
    (passes : Passes v m chunks events rest) : ∀ s : State, s.w = v.bytes → s.buf = m →
      ∃ t, Host.Core.run Sys2Proof.core chunks.length (s.withChunks chunks) = .next t ∧
        t.buf = rest ∧ t.evt = s.evt ++ events := by
  induction passes with
  | nil =>
    intro s hw content
    exact ⟨s.withChunks [], rfl, content, (List.append_nil s.evt).symm⟩
  | @cons m kept rest chunk chunks events later first _ ih =>
    rintro s hw rfl
    obtain ⟨t, run, content, emitted⟩ := ih
      { s with buf := kept, evt := s.evt ++ events, inSession := true } hw rfl
    exact ⟨t, (run_withChunks_cons hw first chunks).trans run, content, by rw [emitted, List.append_assoc]⟩

/-! ### Every byte is accounted for -/

/-- The notice for discarded bytes accounts for them; no bytes need no notice. -/
theorem accountsFor_desyncOf (v : Width) {noise : List Byte} (no_marker : sof ∉ noise) :
    ∃ runs, List.Forall₂ (accountsFor v) (desyncOf noise.length) runs ∧ runs.flatten = noise := by
  rw [desyncOf_length]
  split
  case isTrue empty => exact ⟨[], .nil, empty.symm⟩
  case isFalse => exact ⟨[noise], .cons ⟨rfl, no_marker⟩ .nil, by simp⟩

/-- A pass cuts what BUF held into the runs of its events and what it leaves. -/
theorem Reassembles.accounts {v : Width} {m rest : Memory} {events : List Event}
    (pass : Reassembles v m events rest) :
    ∃ runs, List.Forall₂ (accountsFor v) events runs ∧ m = runs.flatten ++ rest := by
  induction pass with
  | noMarker no_marker =>
    obtain ⟨runs, counted, rfl⟩ := accountsFor_desyncOf v no_marker
    exact ⟨runs, counted, (List.append_nil _).symm⟩
  | waits no_marker _ =>
    obtain ⟨runs, counted, rfl⟩ := accountsFor_desyncOf v no_marker
    exact ⟨runs, counted, rfl⟩
  | invalid no_marker _ _ ih =>
    obtain ⟨runs, counted, rfl⟩ := accountsFor_desyncOf v no_marker
    obtain ⟨more, counted_more, rfl⟩ := ih
    exact ⟨runs ++ [sof] :: more, List.rel_append counted (.cons rfl counted_more), by simp⟩
  | @frame _ _ f _ _ no_marker _ _ ih =>
    obtain ⟨runs, counted, rfl⟩ := accountsFor_desyncOf v no_marker
    obtain ⟨more, counted_more, rfl⟩ := ih
    exact ⟨runs ++ f.wire v :: more, List.rel_append counted (.cons rfl counted_more), by simp⟩

/-- The same over a series of chunks: what a pass leaves is at the front of what the next one cuts. -/
theorem Passes.accounts {v : Width} {m rest : Memory} {chunks : List (List Byte)} {events : List Event}
    (passes : Passes v m chunks events rest) :
    ∃ runs, List.Forall₂ (accountsFor v) events runs ∧ m ++ chunks.flatten = runs.flatten ++ rest := by
  induction passes with
  | nil => exact ⟨[], .nil, List.append_nil _⟩
  | cons first _ ih =>
    obtain ⟨runs, counted, cut⟩ := first.accounts
    obtain ⟨more, counted_more, cut_more⟩ := ih
    refine ⟨runs ++ more, List.rel_append counted counted_more, ?_⟩
    rw [List.flatten_cons, ← List.append_assoc, cut, List.append_assoc, cut_more, List.flatten_append,
      List.append_assoc]

theorem accountsFor_length {v : Width} {e : Event} {run : List Byte} (counted : accountsFor v e run) :
    run.length = consumed v e := by
  cases e with
  | evFrame f => rw [show run = f.wire v from counted, f.wire_length v, consumed]
  | evInvalid r tag => rw [show run = [sof] from counted]; rfl
  | evDesync n => exact counted.1

theorem flatten_length_of_accountsFor {v : Width} {events : List Event} {runs : List (List Byte)}
    (counted : List.Forall₂ (accountsFor v) events runs) :
    runs.flatten.length = (events.map (consumed v)).sum := by
  induction counted with
  | nil => rfl
  | cons head _ ih => simp [accountsFor_length head, ih]

/-- Settles O37: the passes of the series give both the run of the machine and the runs of bytes; the counts are the
lengths of the runs. -/
theorem pushedBytesAreAllAccountedFor : Obligations.PushedBytesAreAllAccountedFor := by
  intro s v chunks hw
  obtain ⟨events, rest, passes⟩ := passes_exists v s.buf chunks
  obtain ⟨t, run, rfl, emitted⟩ := passes.run s hw rfl
  obtain ⟨runs, counted, cut⟩ := passes.accounts
  refine ⟨t, events, runs, run, emitted, counted, cut, ?_⟩
  rw [← List.length_append, cut, List.length_append, flatten_length_of_accountsFor counted]

/-! ### Merging adjacent notices -/

theorem mergeDesync_append (front events : List Event) :
    mergeDesync (front ++ events) = front.foldr consMerged (mergeDesync events) :=
  List.foldr_append

/-- What comes after some events enters their merged list through its own merged list only. -/
theorem mergeDesync_append_congr (front : List Event) {xs ys : List Event} (same : mergeDesync xs = mergeDesync ys) :
    mergeDesync (front ++ xs) = mergeDesync (front ++ ys) := by
  rw [mergeDesync_append, mergeDesync_append, same]

theorem consMerged_desync_add (a b : Nat) (events : List Event) :
    consMerged (.evDesync a) (consMerged (.evDesync b) events) = consMerged (.evDesync (a + b)) events := by
  rcases events with _ | ⟨_ | _ | n, events⟩
  · rfl
  · rfl
  · rfl
  · simp [consMerged, Nat.add_assoc]

/-- One notice for `a + b` bytes merges to what two notices, for `a` and for `b`, merge to. -/
theorem mergeDesync_desyncOf_add (a b : Nat) (events : List Event) :
    mergeDesync (desyncOf (a + b) ++ events) = mergeDesync (desyncOf a ++ (desyncOf b ++ events)) := by
  rcases Nat.eq_zero_or_pos a with rfl | ha
  · simp [desyncOf]
  rcases Nat.eq_zero_or_pos b with rfl | hb
  · simp [desyncOf]
  · simp [desyncOf, mergeDesync, ha.ne', hb.ne', consMerged_desync_add]

theorem filter_consMerged (e : Event) (events : List Event) :
    (consMerged e events).filter (fun e => !isDesync e) = (e :: events).filter (fun e => !isDesync e) := by
  unfold consMerged
  split
  · rfl
  · rfl

/-- Merging touches no EvFrame and no EvInvalid. -/
theorem filter_mergeDesync (events : List Event) :
    (mergeDesync events).filter (fun e => !isDesync e) = events.filter (fun e => !isDesync e) := by
  induction events with
  | nil => rfl
  | cons e events ih =>
    rw [mergeDesync, List.foldr_cons, filter_consMerged, ← mergeDesync]
    simp only [List.filter_cons, ih]

/-! ### Two passes as one -/

/-- Noise in front of a pass is one more notice, up to merging. -/
theorem Reassembles.after_noise {v : Width} {noise m rest : Memory} {events : List Event} (no_marker : sof ∉ noise)
    (pass : Reassembles v m events rest) :
    ∃ whole, Reassembles v (noise ++ m) whole rest ∧
      mergeDesync whole = mergeDesync (desyncOf noise.length ++ events) := by
  have joined {more : List Byte} (none_more : sof ∉ more) : sof ∉ noise ++ more := by simp [no_marker, none_more]
  cases pass with
  | noMarker hn =>
    refine ⟨_, .noMarker (joined hn), ?_⟩
    simpa using mergeDesync_desyncOf_add noise.length m.length []
  | @waits more cand hn hj =>
    rw [← List.append_assoc]
    refine ⟨_, .waits (joined hn) hj, ?_⟩
    simpa using mergeDesync_desyncOf_add noise.length more.length []
  | @invalid more cand tag r later _ hn hj next =>
    rw [← List.append_assoc]
    refine ⟨_, .invalid (joined hn) hj next, ?_⟩
    rw [List.length_append]
    exact mergeDesync_desyncOf_add _ _ _
  | @frame more behind f later _ hn hf next =>
    rw [← List.append_assoc]
    refine ⟨_, .frame (joined hn) hf next, ?_⟩
    rw [List.length_append]
    exact mergeDesync_desyncOf_add _ _ _

/-- A pass and then a pass over what it left and a chunk do what one pass over everything does, up to merging: the
verdicts of the first pass are final (41_frame_decoder.md R105). -/
theorem Reassembles.append {v : Width} {m kept rest : Memory} {chunk : List Byte} {events later : List Event}
    (first : Reassembles v m events kept) (second : Reassembles v (kept ++ chunk) later rest) :
    ∃ whole, Reassembles v (m ++ chunk) whole rest ∧ mergeDesync whole = mergeDesync (events ++ later) := by
  induction first with
  | noMarker hn => exact second.after_noise hn
  | waits hn _ =>
    rw [List.append_assoc]
    exact second.after_noise hn
  | @invalid noise cand tag r events kept hn hj _ ih =>
    obtain ⟨whole, pass, same⟩ := ih second
    have verdict : judge v (sof :: (cand ++ chunk)) 0 = .invalid r tag := by
      rw [← List.cons_append, judge_append (by simp [hj]), hj]
    simp only [List.append_assoc, List.cons_append]
    refine ⟨_, .invalid hn verdict pass, ?_⟩
    exact mergeDesync_append_congr _ (mergeDesync_append_congr [_] same)
  | @frame noise behind f events kept hn hf _ ih =>
    obtain ⟨whole, pass, same⟩ := ih second
    simp only [List.append_assoc, List.cons_append]
    refine ⟨_, .frame hn hf pass, ?_⟩
    exact mergeDesync_append_congr _ (mergeDesync_append_congr [_] same)

/-- The passes over a series are one pass over the bytes of the whole series, up to merging. -/
theorem Passes.as_one {v : Width} {m rest : Memory} {chunks : List (List Byte)} {events : List Event}
    (passes : Passes v m chunks events rest) : m.wf v = true →
      ∃ whole, Reassembles v (m ++ chunks.flatten) whole rest ∧ mergeDesync whole = mergeDesync events := by
  induction passes with
  | nil =>
    intro wf
    rw [List.flatten_nil, List.append_nil]
    exact ⟨[], .of_wf wf, rfl⟩
  | cons first _ ih =>
    intro _
    obtain ⟨later, pass, same_later⟩ := ih first.rest_wf
    obtain ⟨whole, pass, same⟩ := first.append pass
    rw [List.flatten_cons, ← List.append_assoc]
    exact ⟨whole, pass, same.trans (mergeDesync_append_congr _ same_later)⟩

/-- Two cuttings of the same bytes end with the same BUF and the same merged events: both are the one pass over these
bytes, whose result is unique. -/
theorem Passes.same_of_same_bytes {v : Width} {m restX restY : Memory} {xs ys : List (List Byte)}
    {eventsX eventsY : List Event} (passesX : Passes v m xs eventsX restX) (passesY : Passes v m ys eventsY restY)
    (wf : m.wf v = true) (same : xs.flatten = ys.flatten) :
    restX = restY ∧ mergeDesync eventsX = mergeDesync eventsY := by
  obtain ⟨wholeX, passX, mergedX⟩ := passesX.as_one wf
  obtain ⟨wholeY, passY, mergedY⟩ := passesY.as_one wf
  rw [← same] at passY
  obtain ⟨rfl, rest_eq⟩ := passX.unique passY
  exact ⟨rest_eq, mergedX.symm.trans mergedY⟩

/-- Settles O38, by `Passes.same_of_same_bytes`; the EvFrame and EvInvalid events are those of the merged lists
(`filter_mergeDesync`). -/
theorem chunkBoundariesDoNotMatter : Obligations.ChunkBoundariesDoNotMatter := by
  intro s v xs ys hw wf same
  rw [bufWf_eq hw] at wf
  obtain ⟨eventsX, restX, passesX⟩ := passes_exists v s.buf xs
  obtain ⟨eventsY, restY, passesY⟩ := passes_exists v s.buf ys
  obtain ⟨rest_eq, merged⟩ := passesX.same_of_same_bytes passesY wf same
  obtain ⟨a, runA, bufA, evtA⟩ := passesX.run s hw rfl
  obtain ⟨b, runB, bufB, evtB⟩ := passesY.run s hw rfl
  refine ⟨a, b, eventsX, eventsY, runA, runB, ?_, evtA, evtB, ?_, merged⟩
  · rw [bufA, bufB, rest_eq]
  · rw [← filter_mergeDesync eventsX, merged, filter_mergeDesync]

/-- Settles O50: CLOSE empties BUF, so both series start their passes from the empty BUF. -/
theorem nothingPushedBeforeCloseShowsAfterIt : Obligations.NothingPushedBeforeCloseShowsAfterIt := by
  intro s t fresh v chunks hw closed same_width empty
  obtain ⟨events, rest, passes⟩ := passes_exists v [] chunks
  injection closed with closed
  subst closed
  obtain ⟨a, runA, bufA, evtA⟩ := passes.run s.clear hw rfl
  obtain ⟨b, runB, bufB, evtB⟩ := passes.run fresh (same_width.trans hw) empty
  exact ⟨a, b, events, runA, runB, evtA, evtB, bufA.trans bufB.symm⟩

end Sys2Proof.Machine
end

section
/-! Proofs of the statements about what an operation writes and when it is refused, about CLOSE and RESET
(spec/43_session_control.md) and about the reset state (spec/70_reset_and_hazards.md). -/

namespace Sys2Proof.Machine

/-! ### What an operation leaves unchanged -/

/-- Settles O6: none of the four things an operation can do (`exec_next`) is a write of W or of the queue. -/
theorem noOperationWritesWidth : Obligations.NoOperationWritesWidth := by
  intro i s t run
  obtain ⟨_, _, _, rfl⟩ | ⟨_, _, _, _, rfl⟩ | ⟨_, _, _, _, _, _, rfl⟩ | rfl := exec_next run
  case inl => exact ⟨rfl, rfl⟩
  case inr.inl => exact ⟨rfl, rfl⟩
  case inr.inr.inl => exact ⟨rfl, rfl⟩
  case inr.inr.inr => exact ⟨rfl, rfl⟩

/-- What the output records hold stays, and what an operation adds stands behind it. -/
theorem exec_outputs_grow {i : Instr} {s t : State} (run : exec i s = .next t) :
    s.evt <+: t.evt ∧ s.encRsp <+: t.encRsp ∧ s.decRsp <+: t.decRsp := by
  obtain ⟨_, _, _, rfl⟩ | ⟨_, _, _, _, rfl⟩ | ⟨_, _, _, _, _, _, rfl⟩ | rfl := exec_next run
  case inl => exact ⟨List.prefix_rfl, List.prefix_append _ _, List.prefix_rfl⟩
  case inr.inl => exact ⟨List.prefix_rfl, List.prefix_rfl, List.prefix_append _ _⟩
  case inr.inr.inl => exact ⟨List.prefix_append _ _, List.prefix_rfl, List.prefix_rfl⟩
  case inr.inr.inr => exact ⟨List.prefix_rfl, List.prefix_rfl, List.prefix_rfl⟩

/-- A DEC1 that answers had a legal width, and its answer is the judgement at that width. -/
theorem exec_dec1_next {s t : State} {buf : List Byte} {off : Nat} (run : exec (.dec1 buf off) s = .next t) :
    ∃ v : Width, s.w = v.bytes ∧ t = { s with decRsp := s.decRsp ++ [judge v buf off] } := by
  obtain ⟨v, hw, _⟩ := withWidth_next run
  rw [exec_dec1 hw] at run
  injection run with run
  exact ⟨v, hw, run.symm⟩

theorem exec_close (s : State) : exec .close s = .next s.clear := rfl

theorem exec_reset (s : State) : exec .reset s = .next s.clear := rfl

theorem clear_of_empty {s : State} (empty : s.buf = []) : s.clear = s := by
  rw [State.clear, ← empty]

/-- Settles O55. -/
theorem onlyPushEmitsEvents : Obligations.OnlyPushEmitsEvents := by
  intro s t
  refine ⟨?enc, ?dec1, ?close, ?reset⟩
  case enc =>
    intro mt ss op pl run
    obtain ⟨v, _, rfl⟩ := exec_enc_next run
    exact ⟨rfl, rfl, rfl⟩
  case dec1 =>
    intro buf off run
    obtain ⟨v, _, rfl⟩ := exec_dec1_next run
    exact ⟨rfl, rfl, rfl⟩
  case close =>
    intro run
    injection run with run
    rw [← run, State.clear_evt]
  case reset =>
    intro run
    injection run with run
    rw [← run, State.clear_evt]

/-! ### CLOSE and RESET -/

/-- Settles O47. -/
theorem closeDiscardsSilently : Obligations.CloseDiscardsSilently := exec_close

/-- Settles O48. -/
theorem closeIsIdempotent : Obligations.CloseIsIdempotent := by
  constructor
  · intro s empty
    rw [exec_close, clear_of_empty empty]
  · intro s t run
    injection run with run
    rw [exec_close, ← run, clear_of_empty (s := s.clear) rfl]

/-- Settles O49: an empty BUF is in phase HUNT. -/
theorem resetOperationEmptiesBuffer : Obligations.ResetOperationEmptiesBuffer := by
  intro s
  refine ⟨exec_reset s, (exec_reset s).trans (exec_close s).symm, ?_⟩
  intro v t run
  injection run with run
  rw [← run]
  rfl

/-! ### An illegal width -/

theorem withWidth_illegal {s : State} (ne_one : s.w ≠ 1) (ne_two : s.w ≠ 2) (run : Width → State) :
    withWidth s run = .refused .widthNotLegal := by
  have none : s.width? = none := Width.ofNat?_eq_none.mpr ⟨ne_one, ne_two⟩
  simp only [withWidth, none]

/-- Settles O7: what takes W as an operand is refused (`withWidth_illegal`), an arriving frame because it is a PUSH. -/
theorem illegalWidthIsRefused : Obligations.IllegalWidthIsRefused := by
  intro s ne_one ne_two
  have push (chunk : List Byte) : exec (.push chunk) s = .refused .widthNotLegal := withWidth_illegal ne_one ne_two _
  refine ⟨fun mt ss op pl => withWidth_illegal ne_one ne_two _, fun buf off => withWidth_illegal ne_one ne_two _, push,
    ?format_one, ?format_two, ⟨_, exec_close s⟩, ⟨_, exec_reset s⟩⟩
  case format_one =>
    intro f fits
    rw [exec_frameW1_of_le fits, push]
  case format_two =>
    intro f fits
    rw [exec_frameW2_of_le fits, push]

/-! ### The reset state -/

/-- Settles O1: the width 0 of the reset state is no legal one. -/
theorem resetEmptiesBufferAndLeavesWidthUnset : Obligations.ResetEmptiesBufferAndLeavesWidthUnset := by
  have ne_one : State.reset.w ≠ 1 := Nat.zero_ne_one
  have ne_two : State.reset.w ≠ 2 := (Nat.zero_lt_succ 1).ne
  obtain ⟨_, _, push_refused, _⟩ := illegalWidthIsRefused State.reset ne_one ne_two
  exact ⟨rfl, rfl, ne_one, ne_two, push_refused⟩

/-- Settles O2: each clause of the invariant is about an empty record or an empty BUF, or about W = 0. -/
theorem resetIsWellFormed : Obligations.ResetIsWellFormed :=
  (wf_iff State.reset).mpr ⟨Nat.zero_le 2, rfl, .inr rfl, .inl rfl, rfl, rfl, rfl⟩

end Sys2Proof.Machine
end

section
/-! Proofs of the statements about a step: what the ports select (spec/30_encoding.md section 4), the configuration of W
(spec/43_session_control.md section 3), and when a step is refused (spec/60_exceptions.md R176). -/

namespace Sys2Proof.Machine

/-! ### A step by its next transaction -/

theorem step_operation {s : State} {t : Transaction} {rest : List Transaction} {i : Instr}
    (next : s.pending = t :: rest) (selects : select s.width? t = .operation i) :
    step s = noteSession i (exec i (s.setPending rest)) := by
  simp only [step, next, selects]

theorem step_configuration {s : State} {n : Nat} {rest : List Transaction} (next : s.pending = .cfg n :: rest) :
    step s = configure n (s.setPending rest) := by
  simp only [step, next, select]

/-- The session is noted with the mark that stood before the operation, which writes none itself. -/
theorem noteSession_of_next {i : Instr} {s u : State} (run : exec i s = .next u) :
    noteSession i (exec i s) = .next (u.setSession (sessionAfter i s.inSession)) := by
  rw [run, noteSession, exec_inSession run]

theorem noteSession_of_refused {i : Instr} {s : State} {r : Refusal} (run : exec i s = .refused r) :
    noteSession i (exec i s) = .refused r := by
  rw [run, noteSession]

theorem step_of_exec_next {s u : State} {t : Transaction} {rest : List Transaction} {i : Instr}
    (next : s.pending = t :: rest) (selects : select s.width? t = .operation i)
    (run : exec i (s.setPending rest) = .next u) : step s = .next (u.setSession (sessionAfter i s.inSession)) :=
  (step_operation next selects).trans (noteSession_of_next run)

theorem step_of_exec_refused {s : State} {r : Refusal} {t : Transaction} {rest : List Transaction} {i : Instr}
    (next : s.pending = t :: rest) (selects : select s.width? t = .operation i)
    (run : exec i (s.setPending rest) = .refused r) : step s = .refused r :=
  (step_operation next selects).trans (noteSession_of_refused run)

theorem step_idle {s : State} (idle : s.pending = []) : step s = .next s := by
  simp only [step, idle]

/-- Settles O51. -/
theorem stepRunsTheSelectedInstruction : Obligations.StepRunsTheSelectedInstruction := by
  refine ⟨?operation, ?refused, fun _ => ⟨rfl, rfl⟩, ?fixed, fun s => step_idle⟩
  case operation =>
    intro s u t rest i next selects run
    exact step_of_exec_next next selects run
  case refused =>
    intro s r t rest i next selects run
    exact step_of_exec_refused next selects run
  case fixed =>
    intro i running not_close not_reset
    cases i with
    | frameW1 | frameW2 | enc | dec1 | push => rfl
    | close => contradiction
    | reset => contradiction

/-- Settles O52; what RX selects runs as the PUSH of the chunk (`rxInstr_is_push`). -/
theorem portSelectsTheOperation : Obligations.PortSelectsTheOperation := by
  intro width
  refine ⟨fun mt ss op pl => rfl, fun mt ss op => rfl, fun buf off => rfl, ?rx, rfl, rfl⟩
  case rx =>
    intro s chunk
    exact ⟨rxInstr s.width? chunk, rfl, (rxInstr_is_push s.width? chunk).1 s⟩

/-! ### A whole wire frame on RX -/

theorem rxInstr_of_decode {v : Width} {chunk : List Byte} {i : Instr} (read : decode v chunk = .ok (i, [])) :
    rxInstr (some v) chunk = i := by
  simp only [rxInstr, read]

/-- Under a legal W, RX completes and fixes W. -/
theorem step_rx {s : State} {v : Width} {chunk : List Byte} {rest : List Transaction} (hw : s.w = v.bytes)
    (next : s.pending = .rx chunk :: rest) :
    ∃ u, exec (rxInstr s.width? chunk) (s.setPending rest) = .next u ∧ step s = .next (u.setSession true) := by
  obtain ⟨runs, session⟩ := rxInstr_is_push s.width? chunk
  obtain ⟨u, run⟩ := exec_push_completes (s := s.setPending rest) hw chunk
  have run : exec (rxInstr s.width? chunk) (s.setPending rest) = .next u := (runs _).trans run
  refine ⟨u, run, ?_⟩
  rw [step_of_exec_next next rfl run, session]

/-- Settles O53. -/
theorem stepRunsTheDecodedFrame : Obligations.StepRunsTheDecodedFrame := by
  intro s v chunk rest i hw next read
  obtain ⟨u, run, stepped⟩ := step_rx hw next
  rw [width?_eq hw, rxInstr_of_decode read] at run
  exact ⟨u, run, stepped⟩

/-- The table decoder reads a word by decoding its bytes, as a whole, in the format it chose. -/
theorem decodeTableWord_eq_some {nbits w : Nat} {i : Instr} (read : decodeTableWord nbits w = some i) :
    ∃ v, tableFormat nbits w = some v ∧ decode v (tableBytes v nbits w) = .ok (i, []) := by
  unfold decodeTableWord at read
  split at read
  case h_2 => contradiction
  case h_1 v format =>
    unfold decodeTableAs at read
    split at read
    case h_2 => contradiction
    case h_1 j decoded =>
      injection read with read
      exact ⟨v, format, read ▸ decoded⟩

theorem withFetchWord_of_format {nbits w : Nat} {v : Width} (format : tableFormat nbits w = some v) (s : State) :
    s.withFetchWord nbits w =
      { s with w := v.bytes, pending := .rx (tableBytes v nbits w) :: s.pending } := by
  simp only [State.withFetchWord, fetchWordState, format]

/-- Settles O57: the placed word is a whole wire frame on RX at the width of its format, so O53 says what runs. -/
theorem tableWordRunsAsItsInstruction : Obligations.TableWordRunsAsItsInstruction := by
  intro s nbits w i read
  obtain ⟨v, format, decoded⟩ := decodeTableWord_eq_some read
  rw [withFetchWord_of_format format]
  obtain ⟨u, run, stepped⟩ := stepRunsTheDecodedFrame
    { s with w := v.bytes, pending := .rx (tableBytes v nbits w) :: s.pending } v _ s.pending i rfl rfl decoded
  refine ⟨v, u, run, stepped, ?_⟩
  obtain ⟨f, _, _, ⟨rfl, rfl⟩ | ⟨rfl, rfl⟩⟩ := decode_eq_ok decoded
  · exact .inl ⟨f, rfl, rfl⟩
  · exact .inr ⟨f, rfl, rfl⟩

/-! ### The configuration of W -/

theorem configure_legal {s : State} {v : Width} (free : s.inSession = false ∨ s.w = v.bytes) :
    configure v.bytes s = .next (s.setWidth v.bytes) := by
  have admitted : ¬(s.inSession = true ∧ s.w ≠ v.bytes) := by
    rintro ⟨running, changes⟩
    exact free.elim (by simp [running]) changes
  simp only [configure, Width.ofNat?_bytes, if_neg admitted]

theorem configure_illegal {n : Nat} (ne_one : n ≠ 1) (ne_two : n ≠ 2) (s : State) :
    configure n s = .refused .widthNotLegal := by
  simp only [configure, Width.ofNat?_eq_none.mpr ⟨ne_one, ne_two⟩]

theorem configure_in_session {s : State} {v : Width} (running : s.inSession = true) (changes : s.w ≠ v.bytes) :
    configure v.bytes s = .refused .widthChangeInSession := by
  simp only [configure, Width.ofNat?_bytes, if_pos (And.intro running changes)]

/-- Settles O4. -/
theorem configurationSetsWidth : Obligations.ConfigurationSetsWidth := by
  constructor
  · intro s v rest next free
    rw [step_configuration next, configure_legal (s := s.setPending rest) free]
    rfl
  · intro s v rest next
    refine ⟨_, step_of_exec_next next rfl rfl, ?_⟩
    rw [step_configuration rfl, configure_legal (.inl rfl)]
    rfl

/-- Settles O5. -/
theorem configurationIsRefused : Obligations.ConfigurationIsRefused := by
  refine ⟨?illegal, ?in_session, ?after_reset⟩
  case illegal =>
    intro s n rest next ne_one ne_two
    rw [step_configuration next, configure_illegal ne_one ne_two]
  case in_session =>
    intro s v rest next running changes
    rw [step_configuration next, configure_in_session (s := s.setPending rest) running changes]
  case after_reset =>
    intro s v rest next running changes
    refine ⟨_, step_of_exec_next next rfl rfl, rfl, ?_⟩
    rw [step_configuration rfl]
    exact configure_in_session running changes

/-! ### When a step is refused -/

/-- The outcome is a next state where the transaction is admitted, and a refusal where it is not; never a fault. -/
def AnswersExactlyIf (admitted : Bool) (o : Host.Outcome State Fault Refusal) : Prop :=
  (admitted = true → ∃ t, o = .next t) ∧ (admitted = false → ∃ r, o = .refused r)

theorem answersExactlyIf_true {o : Host.Outcome State Fault Refusal} {t : State} (next : o = .next t) :
    AnswersExactlyIf true o :=
  ⟨fun _ => ⟨t, next⟩, fun refused => by contradiction⟩

theorem answersExactlyIf_false {o : Host.Outcome State Fault Refusal} {r : Refusal} (refused : o = .refused r) :
    AnswersExactlyIf false o :=
  ⟨fun admitted => by contradiction, fun _ => ⟨r, refused⟩⟩

theorem width_legal_or_not (n : Nat) :
    (n == 1 || n == 2) = true ∧ (∃ v : Width, n = v.bytes) ∨ (n == 1 || n == 2) = false ∧ n ≠ 1 ∧ n ≠ 2 := by
  by_cases legal : n = 1 ∨ n = 2
  · exact .inl ⟨by simpa using legal, Width.exists_bytes_eq legal⟩
  · exact .inr ⟨by simpa using legal, not_or.mp legal⟩

theorem configure_answers (n : Nat) (s : State) :
    AnswersExactlyIf ((n == 1 || n == 2) && (!s.inSession || n == s.w)) (configure n s) := by
  obtain ⟨legal, v, rfl⟩ | ⟨illegal, ne_one, ne_two⟩ := width_legal_or_not n
  swap
  · rw [illegal, Bool.false_and]
    exact answersExactlyIf_false (configure_illegal ne_one ne_two s)
  rw [legal, Bool.true_and]
  by_cases free : s.inSession = false ∨ s.w = v.bytes
  · have admitted : (!s.inSession || v.bytes == s.w) = true := by
      rcases free with outside | unchanged
      · simp [outside]
      · simp [unchanged]
    rw [admitted]
    exact answersExactlyIf_true (configure_legal free)
  · obtain ⟨running, changes⟩ := not_or.mp free
    rw [Bool.not_eq_false] at running
    have refused : (!s.inSession || v.bytes == s.w) = false := by simp [running, Ne.symm changes]
    rw [refused]
    exact answersExactlyIf_false (configure_in_session running changes)

/-- A step that runs an operation which needs a legal W and nothing else. -/
theorem step_answers_if_width_legal {s : State} {t : Transaction} {rest : List Transaction} {i : Instr}
    (next : s.pending = t :: rest) (selects : select s.width? t = .operation i)
    (completes : ∀ (u : State) (v : Width), u.w = v.bytes → ∃ t, exec i u = .next t)
    (refuses : ∀ u : State, u.w ≠ 1 → u.w ≠ 2 → exec i u = .refused .widthNotLegal) :
    AnswersExactlyIf (s.w == 1 || s.w == 2) (step s) := by
  obtain ⟨legal, v, hw⟩ | ⟨illegal, ne_one, ne_two⟩ := width_legal_or_not s.w
  · obtain ⟨u, run⟩ := completes (s.setPending rest) v hw
    rw [legal]
    exact answersExactlyIf_true (step_of_exec_next next selects run)
  · rw [illegal]
    exact answersExactlyIf_false (step_of_exec_refused next selects (refuses _ ne_one ne_two))

theorem step_answers (s : State) : AnswersExactlyIf s.admitsNext (step s) := by
  cases next : s.pending with
  | nil =>
    rw [State.admitsNext, next]
    exact answersExactlyIf_true (step_idle next)
  | cons t rest =>
    cases t with
    | cfg n =>
      rw [State.admitsNext, next, step_configuration next]
      exact configure_answers n (s.setPending rest)
    | encReq mt ss op pl =>
      rw [State.admitsNext, next]
      exact step_answers_if_width_legal next rfl (fun u v hw => ⟨_, exec_enc hw mt ss op _⟩)
        fun u ne_one ne_two => withWidth_illegal ne_one ne_two _
    | decReq buf off =>
      rw [State.admitsNext, next]
      exact step_answers_if_width_legal next rfl (fun u v hw => ⟨_, exec_dec1 hw buf off⟩)
        fun u ne_one ne_two => withWidth_illegal ne_one ne_two _
    | rx chunk =>
      obtain ⟨runs, _⟩ := rxInstr_is_push s.width? chunk
      rw [State.admitsNext, next]
      exact step_answers_if_width_legal next rfl (fun u v hw => runs u ▸ exec_push_completes hw chunk)
        fun u ne_one ne_two => (runs u).trans (withWidth_illegal ne_one ne_two _)
    | ctlClose =>
      rw [State.admitsNext, next]
      exact answersExactlyIf_true (step_of_exec_next next rfl (exec_close _))
    | ctlReset =>
      rw [State.admitsNext, next]
      exact answersExactlyIf_true (step_of_exec_next next rfl (exec_reset _))

/-- Settles O54: each kind of transaction is treated in `step_answers`. -/
theorem stepIsRefusedOnlyAtTheBoundary : Obligations.StepIsRefusedOnlyAtTheBoundary := step_answers

/-- Settles O56: a configuration leaves the records as they are, and an operation appends (`exec_outputs_grow`). -/
theorem outputsOnlyGrow : Obligations.OutputsOnlyGrow := by
  intro s t stepped
  obtain rfl | ⟨rest, n, configured⟩ | ⟨rest, i, u, run, rfl⟩ := step_next stepped
  · exact ⟨List.prefix_rfl, List.prefix_rfl, List.prefix_rfl⟩
  · obtain ⟨_, _, _, rfl⟩ := configure_next configured
    exact ⟨List.prefix_rfl, List.prefix_rfl, List.prefix_rfl⟩
  · have grown := exec_outputs_grow run
    exact grown

end Sys2Proof.Machine
end

section
/-! Proof that every step keeps the machine's invariant `State.wf` (spec/10_state.md sections 1 and 2). -/

namespace Sys2Proof.Machine

/-! ### The forms of the results -/

theorem isWire_wire {v : Width} {f : Frame} (fits : f.pl.length ≤ lmax v) : isWire v (f.wire v) = true := by
  have verdict := judge_wire v f [] (Frame.fits_iff.mpr fits)
  rw [List.append_nil] at verdict
  rw [isWire, verdict, f.wire_length v]
  exact beq_self_eq_true _

/-- What ENC answers has its form (R85, R86). -/
theorem encResultWf_serialize (v : Width) (f : Frame) : encResultWf (serialize v f) = true := by
  by_cases fits : f.pl.length ≤ lmax v
  · have wire := isWire_wire fits
    rw [serialize_of_le fits, encResultWf]
    cases v with
    | one => rw [wire, Bool.true_or]
    | two => rw [wire, Bool.or_true]
  · rw [serialize_of_lt (Nat.lt_of_not_le fits), encResultWf]

/-- What DEC1 answers has its form (R99, R102). -/
theorem decResultWf_judge (v : Width) (buf : List Byte) (off : Nat) : decResultWf (judge v buf off) = true := by
  rw [judge_drop]
  rcases verdict : judge v (buf.drop off) 0 with ⟨f, n⟩ | _ | ⟨r, tag⟩
  case frame =>
    obtain ⟨fits, rfl, _⟩ := judge_frame verdict
    cases v with
    | one => simp [decResultWf, fits]
    | two => simp [decResultWf, fits]
  case incomplete => rfl
  case invalid =>
    obtain ⟨rfl, b, _, _, bad, rfl⟩ | ⟨rfl, field, hdr, op, pl, fcs, _, rfl, _, size, _⟩ := judge_invalid verdict
    · simp [decResultWf, byteAt, bad]
    · simp only [decResultWf, byteAt, List.getD_cons_zero, beq_self_eq_true, Bool.true_and, decide_eq_true_eq,
        List.length_cons, List.length_append, List.length_nil]
      have := v.bytes_pos
      omega

/-! ### What an operation keeps -/

/-- The clauses of the invariant on the output records. -/
def State.RecordsWf (s : State) : Prop :=
  s.encRsp.all encResultWf = true ∧ s.decRsp.all decResultWf = true ∧ s.evt.all eventWf = true

/-- `wf_iff` with the clauses on the output records taken together. -/
theorem wf_iff_recordsWf (s : State) : s.wf = true ↔ s.w ≤ 2 ∧ s.bufWf = true ∧
    (s.inSession = true ∨ s.buf = []) ∧ (s.inSession = false ∨ s.w ≠ 0) ∧ s.RecordsWf := wf_iff s

/-- Each operation appends to the records at most what has the form. -/
theorem exec_keeps_recordsWf {i : Instr} {s u : State} (run : exec i s = .next u) (wf : s.RecordsWf) :
    u.RecordsWf := by
  obtain ⟨enc, dec, evt⟩ := wf
  obtain ⟨v, f, _, rfl⟩ | ⟨v, buf, off, _, rfl⟩ | ⟨v, chunk, events, rest, _, pass, rfl⟩ | rfl := exec_next run
  · exact ⟨by simp [enc, encResultWf_serialize], dec, evt⟩
  · exact ⟨enc, by simp [dec, decResultWf_judge], evt⟩
  · exact ⟨enc, dec, by rw [List.all_append, evt, pass.events_wf]; rfl⟩
  · exact ⟨enc, dec, evt⟩

theorem bufWf_of_empty {s : State} (empty : s.buf = []) : s.bufWf = true := by
  unfold State.bufWf
  split <;> rw [empty] <;> rfl

theorem exec_keeps_bufWf {i : Instr} {s u : State} (run : exec i s = .next u) (wf : s.bufWf = true) :
    u.bufWf = true := by
  obtain ⟨_, _, _, rfl⟩ | ⟨_, _, _, _, rfl⟩ | ⟨v, chunk, events, rest, hw, pass, rfl⟩ | rfl := exec_next run
  · exact wf
  · exact wf
  · exact (bufWf_eq (s := { s with buf := rest, evt := s.evt ++ events }) hw).trans pass.rest_wf
  · exact bufWf_of_empty rfl

/-- An operation either has run under a legal W, and then a session runs after it, or it is CLOSE or RESET, which empty
BUF and begin no session. -/
theorem exec_session {i : Instr} {s u : State} (run : exec i s = .next u) (running : Bool) :
    (sessionAfter i running = true ∧ ∃ v : Width, u.w = v.bytes) ∨
      u.buf = [] ∧ (sessionAfter i running = true → running = true) := by
  obtain ⟨same_w, _⟩ := noOperationWritesWidth i s u run
  rw [same_w]
  cases i with
  | frameW1 f | frameW2 f =>
    obtain ⟨v, _, _, hw, _⟩ := execPush_next (deliver_next run)
    exact .inl ⟨rfl, v, hw⟩
  | push chunk =>
    obtain ⟨v, _, _, hw, _⟩ := execPush_next run
    exact .inl ⟨rfl, v, hw⟩
  | enc mt ss op pl =>
    obtain ⟨v, hw, _⟩ := exec_enc_next run
    exact .inl ⟨rfl, v, hw⟩
  | dec1 buf off =>
    obtain ⟨v, hw, _⟩ := exec_dec1_next run
    exact .inl ⟨rfl, v, hw⟩
  | close =>
    injection run with run
    exact .inr ⟨run ▸ rfl, fun mark => by contradiction⟩
  | reset =>
    injection run with run
    exact .inr ⟨run ▸ rfl, id⟩

/-! ### What a step keeps -/

theorem operation_keeps_wf {i : Instr} {s u : State} (wf : s.wf = true) (run : exec i s = .next u) :
    (u.setSession (sessionAfter i s.inSession)).wf = true := by
  obtain ⟨w_le, buf_wf, _, session_w, records⟩ := (wf_iff_recordsWf s).mp wf
  obtain ⟨same_w, _⟩ := noOperationWritesWidth i s u run
  have buf_wf_after := exec_keeps_bufWf run buf_wf
  have records_after := exec_keeps_recordsWf run records
  refine (wf_iff_recordsWf _).mpr
    ⟨same_w.trans_le w_le, buf_wf_after, ?session_buf, ?session_w, records_after⟩
  case session_buf => exact (exec_session run s.inSession).imp And.left And.left
  case session_w =>
    obtain ⟨_, v, hw⟩ | ⟨_, keeps⟩ := exec_session run s.inSession
    · right
      have := v.bytes_pos
      rw [State.setSession_w, hw]
      omega
    · rw [State.setSession_w, same_w]
      exact session_w.imp_left fun stopped => by simpa [stopped] using keeps

theorem configuration_keeps_wf {n : Nat} {s t : State} (wf : s.wf = true) (run : configure n s = .next t) :
    t.wf = true := by
  obtain ⟨_, buf_wf, session_buf, _, records⟩ := (wf_iff_recordsWf s).mp wf
  obtain ⟨v, rfl, free, rfl⟩ := configure_next run
  refine (wf_iff_recordsWf _).mpr ⟨v.bytes_le, ?form, session_buf, .inr (Nat.one_le_iff_ne_zero.mp v.bytes_pos), records⟩
  case form =>
    rcases free with stopped | unchanged
    · exact bufWf_of_empty (session_buf.resolve_left (by simp [stopped]))
    · rw [← unchanged]
      exact buf_wf

/-- Settles O3: what a step does besides (`step_next`), taking the transaction off the queue, no clause speaks of. -/
theorem stepKeepsTheInvariant : Obligations.StepKeepsTheInvariant := by
  intro s t wf stepped
  obtain rfl | ⟨rest, n, configured⟩ | ⟨rest, i, u, run, rfl⟩ := step_next stepped
  · exact wf
  · exact configuration_keeps_wf (s := s.setPending rest) wf configured
  · exact operation_keeps_wf (s := s.setPending rest) wf run

end Sys2Proof.Machine
end

section
/-! Proofs of the statements about the Transport Adapter (spec/43_session_control.md section 4). -/

namespace Sys2Proof.Machine

/-! ### An operation on the adapter's block -/

theorem onBlock_of_next {a : Adapter} {i : Instr} {b : State} (run : exec i a.block = .next b)
    (k : State → Adapter × AdapterResult) :
    a.onBlock i k = .next (k (b.setSession (sessionAfter i a.block.inSession))) := by
  rw [Adapter.onBlock, noteSession_of_next run]

theorem opened_of_open {a : Adapter} (is_open : a.isOpen = true) : a.opened = a := if_pos is_open

theorem opened_of_closed {a : Adapter} (closed : a.isOpen = false) :
    a.opened = { a with isOpen := true, notes := a.notes ++ [.onOpened] } := by
  simp [Adapter.opened, closed]

/-- Settles O58. -/
theorem adapterOpensOnceAndClosesIdempotently : Obligations.AdapterOpensOnceAndClosesIdempotently := by
  refine ⟨?unavailable, ?already_open, ?opens, ?closes, ?closed⟩
  case unavailable =>
    intro a
    simp [adapterCall, adapterOpen]
  case already_open =>
    intro a is_open
    simp [adapterCall, adapterOpen, is_open]
  case opens =>
    intro a closed
    simp [adapterCall, adapterOpen, closed, opened_of_closed closed]
  case closes =>
    intro a is_open
    refine ⟨_, exec_close a.block, ?_⟩
    rw [adapterCall, adapterClose, if_pos is_open, onBlock_of_next (exec_close a.block)]
    rfl
  case closed =>
    intro a closed
    constructor
    · simp [adapterCall, adapterClose, closed]
    · intro chunk
      simp [adapterCall, adapterChunk, closed]

/-! ### send -/

/-- What `send` does with the answer of ENC, given what the block is after it. -/
theorem adapterSend_of_ok {a : Adapter} {b : State} {mt : BitVec 3} {ss : BitVec 5} {op : Byte}
    {pl : Option (List Byte)} {bytes : List Byte} {available : Bool} (writes : Bool)
    (run : exec (.enc mt ss op (pl.getD [])) a.block = .next b) (answer : b.encRsp.getLast? = some (.ok bytes))
    (can_open : a.isOpen = true ∨ available = true) :
    adapterCall (.send mt ss op pl available writes) a = .next (
      if writes then
        ({ Adapter.opened { a with block := { b with inSession := true } } with written := a.written ++ [bytes] },
          .sent bytes)
      else (Adapter.opened { a with block := { b with inSession := true } }, .failed .transportError)) := by
  have not_unavailable : (!a.isOpen && !available) = false := by
    rcases can_open with is_open | available
    · simp [is_open]
    · simp [available]
  rw [adapterCall, adapterSend, payloadOperand, onBlock_of_next run]
  simp only [State.setSession_encRsp, answer, not_unavailable]
  rfl

theorem opened_fields (a : Adapter) :
    a.opened.isOpen = true ∧ a.opened.block = a.block ∧ a.opened.written = a.written := by
  cases is_open : a.isOpen with
  | true => simp [opened_of_open is_open, is_open]
  | false => simp [opened_of_closed is_open]

/-- Settles O59. -/
theorem adapterSendWritesWhatEncReturns : Obligations.AdapterSendWritesWhatEncReturns := by
  intro a v mt ss op pl available hw
  constructor
  · intro fits can_open
    have run := exec_enc_of_le hw mt ss op fits
    have send := fun writes => adapterSend_of_ok writes run List.getLast?_concat can_open
    refine ⟨_, _, run, rfl, rfl, ⟨_, send true, ?_⟩, ⟨_, send false, ?_⟩⟩
    · obtain ⟨is_open, block, written⟩ := opened_fields { a with block := _ }
      exact ⟨block, is_open, rfl⟩
    · obtain ⟨_, block, written⟩ := opened_fields { a with block := _ }
      exact ⟨block, written⟩
  · intro tooLong writes
    have run := exec_enc_of_lt hw mt ss op tooLong
    have answer : (a.block.encRsp ++ [EncResult.encodeError]).getLast? = some .encodeError := List.getLast?_concat
    refine ⟨_, run, ?_⟩
    rw [adapterCall, adapterSend, payloadOperand, onBlock_of_next run]
    simp only [State.setSession_encRsp, answer]
    rfl

/-! ### A chunk read -/

/-- Settles O60: the events that the PUSH appended are those behind the records of before it. -/
theorem adapterNotifiesEveryEventInOrder : Obligations.AdapterNotifiesEveryEventInOrder := by
  refine ⟨?_, fun _ => rfl, fun _ _ => rfl, fun _ => rfl⟩
  intro a v chunk is_open hw
  obtain ⟨buf, new, run⟩ := pushCompletesAndWritesOnlyBufferAndEvents a.block v chunk hw
  refine ⟨_, new, run, rfl, ?_⟩
  rw [adapterCall, adapterChunk, if_pos is_open, onBlock_of_next run, State.setSession_evt, List.drop_left]
  rfl

end Sys2Proof.Machine
end
